-- ==== Sys2Proof/Word.lean ====
section
/-! DEFINITION. The two element types of BCSD: the byte of the codeword buffer and of BYTES (R21, R26),
and the 16-bit code unit of TEXT, of the alphabet and of the Shift-JIS table (R28, R34). -/

namespace Sys2Proof

/-- `u8` (R8). -/
abbrev Byte := BitVec 8

/-- A code unit: a 16-bit element of TEXT (R28). -/
abbrev CodeUnit := BitVec 16

end Sys2Proof
end

