-- ==== Sys2Proof/Config.lean ====
section
/-! DEFINITION. What the spec leaves open as a parameter of the block (R6). `SJIS_TABLE` and `UTF8_DECODE` are
arguments of every decode, so they stand in `State` as plain data (`State.sjis`, `State.utf8`); the constants of
this file have NO BODY and are what nothing in the spec fixes: the table the block holds at reset and the
UTF-8 decoders other than the recommended one. No proof can learn a value of either. -/

namespace Sys2Proof

/-- The contents of `SJIS_TABLE` at reset, as (Shift-JIS code, code unit) pairs. R6 and D13 leave the contents
open: a free value (notes/assumptions/3.md). -/
opaque Config.sjisTable : List (CodeUnit × CodeUnit)

/-- The family of every other `UTF8_DECODE` (R204, D12): total, a function of its byte list alone, `none` for
`invalid`. Free values (notes/assumptions/4.md). -/
opaque Config.utf8Decode : Nat → List Byte → Option (List CodeUnit)

end Sys2Proof
end

