-- ==== Sys2Proof/Syntax.lean ====
section
/-! DEFINITION. The block's instructions (R80, R81, R96, R97): one constructor of `Instr` for each of the 29 rows of
spec/opcode_table.json. A segment carries its data fields as the bit fields the stream holds, not as decoded values:
a field out of range (R93) is encodable and is judged when the segment runs. The count of a segment (R85) is
the number of digits, characters or bytes its fields make, so it is not kept twice. -/

namespace Sys2Proof

/-- The size class of a symbol version (R7). -/
inductive SizeClass
  | sc0 | sc1 | sc2
deriving DecidableEq, Repr

/-- The four content modes, which have a length prefix (R84 and the glossary). -/
inductive ContentMode
  | num | alnum | byte | kanji
deriving DecidableEq, Repr

/-- What follows the three-digit groups of a numeric segment: by `count mod 3`, nothing, one 4-bit group
or one 7-bit group (R86). -/
inductive NumRest
  | none
  | one (g1 : BitVec 4)
  | two (g2 : BitVec 7)
deriving DecidableEq, Repr

/-- The data of a numeric segment: the 10-bit groups in stream order, then the rest (R86). -/
structure NumData where
  groups : List (BitVec 10)
  rest   : NumRest
deriving DecidableEq, Repr

/-- The data of an alphanumeric segment: the 11-bit pairs in stream order, then a 6-bit single if the
count is odd (R87). -/
structure AlnumData where
  pairs  : List (BitVec 11)
  single : Option (BitVec 6)
deriving DecidableEq, Repr

/-- The segments of the stream and the two commands of the Bit Cursor. -/
inductive Instr
  /-- NUM in size class 0 (R160). -/
  | numSc0 (d : NumData)
  /-- NUM in size class 1 (R160). -/
  | numSc1 (d : NumData)
  /-- NUM in size class 2 (R160). -/
  | numSc2 (d : NumData)
  /-- ALNUM in size class 0 (R180). -/
  | alnumSc0 (d : AlnumData)
  /-- ALNUM in size class 1 (R180). -/
  | alnumSc1 (d : AlnumData)
  /-- ALNUM in size class 2 (R180). -/
  | alnumSc2 (d : AlnumData)
  /-- BYTE in size class 0: the payload bytes (R88, R200). -/
  | byteSc0 (bs : List Byte)
  /-- BYTE in size class 1 (R88, R200). -/
  | byteSc1 (bs : List Byte)
  /-- BYTE in size class 2 (R88, R200). -/
  | byteSc2 (bs : List Byte)
  /-- KANJI in size class 0: the 13-bit values (R89, R220). -/
  | kanjiSc0 (ks : List (BitVec 13))
  /-- KANJI in size class 1 (R89, R220). -/
  | kanjiSc1 (ks : List (BitVec 13))
  /-- KANJI in size class 2 (R89, R220). -/
  | kanjiSc2 (ks : List (BitVec 13))
  /-- ECI, selector `0` and a 7-bit value (R90, R241). -/
  | eci7 (v : BitVec 7)
  /-- ECI, selector `10` and a 14-bit value (R90, R241). -/
  | eci14 (v : BitVec 14)
  /-- ECI, selector `110` and a 21-bit value (R90, R241). -/
  | eci21 (v : BitVec 21)
  /-- ECI, selector `111`: the sentinel −1 (R90, R243). -/
  | eciBad
  /-- The explicit terminator (R133). -/
  | term
  /-- Reserved indicator 0x3 (R92, R137). -/
  | rsvd3
  /-- Reserved indicator 0x5 (R92, R137). -/
  | rsvd5
  /-- Reserved indicator 0x6 (R92, R137). -/
  | rsvd6
  /-- Reserved indicator 0x9 (R92, R137). -/
  | rsvd9
  /-- Reserved indicator 0xA (R92, R137). -/
  | rsvd10
  /-- Reserved indicator 0xB (R92, R137). -/
  | rsvd11
  /-- Reserved indicator 0xC (R92, R137). -/
  | rsvd12
  /-- Reserved indicator 0xD (R92, R137). -/
  | rsvd13
  /-- Reserved indicator 0xE (R92, R137). -/
  | rsvd14
  /-- Reserved indicator 0xF (R92, R137). -/
  | rsvd15
  /-- The Bit Cursor's ReadBits(n): command word `0 nnnnnn` (R97, R111). -/
  | bcRead (n : BitVec 6)
  /-- The Bit Cursor's Available(): command word `1 xxxxxx` (R97, R114). -/
  | bcAvail
deriving DecidableEq, Repr

end Sys2Proof
end

