-- ==== Sys2Proof/Machine/Format.lean ====
section
/-! DEFINITION. The numbers of the segment formats: the size class of a version (R7), the width of a length
prefix (R84), the count of a segment's data (R85) and the length of a segment (R91). -/

namespace Sys2Proof

/-- `SC(version)` (R7); no class, and so no decode, outside 1..40 (R303). -/
def sizeClass (version : BitVec 6) : Option SizeClass :=
  let v := version.toNat
  if v = 0 then none
  else if v ≤ 9 then some .sc0
  else if v ≤ 26 then some .sc1
  else if v ≤ 40 then some .sc2
  else none

/-- The 2-bit value of a size class, as the SCR register latches it (R21, R30). -/
def SizeClass.code : SizeClass → BitVec 2
  | .sc0 => 0
  | .sc1 => 1
  | .sc2 => 2

/-- `W(mode, sc)`: the width of the length prefix in bits (R84). -/
def countWidth : ContentMode → SizeClass → Nat
  | .num,   .sc0 => 10
  | .num,   .sc1 => 12
  | .num,   .sc2 => 14
  | .alnum, .sc0 => 9
  | .alnum, .sc1 => 11
  | .alnum, .sc2 => 13
  | .byte,  .sc0 => 8
  | .byte,  .sc1 => 16
  | .byte,  .sc2 => 16
  | .kanji, .sc0 => 8
  | .kanji, .sc1 => 10
  | .kanji, .sc2 => 12

/-- How many digits the rest of a numeric segment holds (R86). -/
def NumRest.count : NumRest → Nat
  | .none  => 0
  | .one _ => 1
  | .two _ => 2

/-- How many bits the rest of a numeric segment occupies (R86). -/
def NumRest.bits : NumRest → Nat
  | .none  => 0
  | .one _ => 4
  | .two _ => 7

/-- The count field of a numeric segment: its digits (R85, R86). -/
def NumData.count (d : NumData) : Nat := 3 * d.groups.length + d.rest.count

/-- How many characters the single of an alphanumeric segment holds (R87). -/
def singleCount : Option (BitVec 6) → Nat
  | none   => 0
  | some _ => 1

/-- The count field of an alphanumeric segment: its characters (R85, R87). -/
def AlnumData.count (d : AlnumData) : Nat := 2 * d.pairs.length + singleCount d.single

/-- The size class whose streams hold the segment; `none` for the segments that every class reads
alike and for the cursor's commands, which are in no stream (R96). -/
def Instr.sizeClass? : Instr → Option SizeClass
  | .numSc0 _ | .alnumSc0 _ | .byteSc0 _ | .kanjiSc0 _ => some .sc0
  | .numSc1 _ | .alnumSc1 _ | .byteSc1 _ | .kanjiSc1 _ => some .sc1
  | .numSc2 _ | .alnumSc2 _ | .byteSc2 _ | .kanjiSc2 _ => some .sc2
  | .eci7 _ | .eci14 _ | .eci21 _ | .eciBad | .term => none
  | .rsvd3 | .rsvd5 | .rsvd6 | .rsvd9 | .rsvd10 => none
  | .rsvd11 | .rsvd12 | .rsvd13 | .rsvd14 | .rsvd15 => none
  | .bcRead _ | .bcAvail => none

/-- Is it a command of the Bit Cursor, which has no encoding in the stream (R97)? -/
def Instr.isCommand : Instr → Bool
  | .bcRead _ | .bcAvail => true
  | .numSc0 _ | .numSc1 _ | .numSc2 _ | .alnumSc0 _ | .alnumSc1 _ | .alnumSc2 _ => false
  | .byteSc0 _ | .byteSc1 _ | .byteSc2 _ | .kanjiSc0 _ | .kanjiSc1 _ | .kanjiSc2 _ => false
  | .eci7 _ | .eci14 _ | .eci21 _ | .eciBad | .term => false
  | .rsvd3 | .rsvd5 | .rsvd6 | .rsvd9 | .rsvd10 => false
  | .rsvd11 | .rsvd12 | .rsvd13 | .rsvd14 | .rsvd15 => false

/-- A segment that a stream of the given size class can hold. -/
def Instr.inStream (sc : SizeClass) (i : Instr) : Bool :=
  !i.isCommand && (i.sizeClass? == none || i.sizeClass? == some sc)

/-- Length of a numeric segment in bits (R91). -/
def numLength (sc : SizeClass) (d : NumData) : Nat :=
  4 + countWidth .num sc + 10 * d.groups.length + d.rest.bits

/-- Length of an alphanumeric segment in bits (R91). -/
def alnumLength (sc : SizeClass) (d : AlnumData) : Nat :=
  4 + countWidth .alnum sc + 11 * d.pairs.length + 6 * singleCount d.single

/-- Length of a byte segment in bits (R91). -/
def byteLength (sc : SizeClass) (bs : List Byte) : Nat :=
  4 + countWidth .byte sc + 8 * bs.length

/-- Length of a kanji segment in bits (R91). -/
def kanjiLength (sc : SizeClass) (ks : List (BitVec 13)) : Nat :=
  4 + countWidth .kanji sc + 13 * ks.length

/-- Length of an instruction in bits: of a segment (R91), or of a cursor command word (R97). -/
def Instr.length : Instr → Nat
  | .numSc0 d => numLength .sc0 d
  | .numSc1 d => numLength .sc1 d
  | .numSc2 d => numLength .sc2 d
  | .alnumSc0 d => alnumLength .sc0 d
  | .alnumSc1 d => alnumLength .sc1 d
  | .alnumSc2 d => alnumLength .sc2 d
  | .byteSc0 bs => byteLength .sc0 bs
  | .byteSc1 bs => byteLength .sc1 bs
  | .byteSc2 bs => byteLength .sc2 bs
  | .kanjiSc0 ks => kanjiLength .sc0 ks
  | .kanjiSc1 ks => kanjiLength .sc1 ks
  | .kanjiSc2 ks => kanjiLength .sc2 ks
  | .eci7 _ => 12
  | .eci14 _ => 20
  | .eci21 _ => 28
  | .eciBad => 7
  | .term => 4
  | .rsvd3 => 4
  | .rsvd5 => 4
  | .rsvd6 => 4
  | .rsvd9 => 4
  | .rsvd10 => 4
  | .rsvd11 => 4
  | .rsvd12 => 4
  | .rsvd13 => 4
  | .rsvd14 => 4
  | .rsvd15 => 4
  | .bcRead _ => 7
  | .bcAvail => 7

end Sys2Proof
end

