-- ==== Sys2Proof/Decode.lean ====
section
/-! DEFINITION. From bits to instructions and back. The decoder reads a *bit source*, a function from bit addresses
(R9) to bits: `BufBit` of the machine (Machine/Ops.lean), or the bits of any byte list followed by zeros (R52).
It is total: every indicator has its row (R81, R96). What it rejects, it rejects by name: a version without a size class
(R303) and a cursor read of more than 32 bits (R115). After it stand the encoder, written from the same formats
(R80 to R90), and the layout of the words of spec/opcode_table.json. -/

namespace Sys2Proof

/-! ### Fields -/

/-- The `n` bits of the source from bit address `j`, as an unsigned number, first bit most significant
(R53, R83). -/
def readNat (bit : Nat → Bool) (j : Nat) : Nat → Nat
  | 0 => 0
  | n + 1 => 2 * readNat bit j n + (bit (j + n)).toNat

/-- A field of `w` bits at bit address `j` (R83). -/
def field (bit : Nat → Bool) (j w : Nat) : BitVec w := BitVec.ofNat w (readNat bit j w)

/-- `c` fields of `w` bits each, one after another from bit address `j`. -/
def fields (bit : Nat → Bool) (w : Nat) : Nat → Nat → List (BitVec w)
  | 0, _ => []
  | c + 1, j => field bit j w :: fields bit w c (j + w)

/-- The `n` low bits of a number, most significant first: what `readNat` reads back. -/
def bitsOf : Nat → Nat → List Bool
  | 0, _ => []
  | n + 1, v => v.testBit n :: bitsOf n v

/-- The bits of a list of fields, in order. -/
def fieldBits {w : Nat} (vs : List (BitVec w)) : List Bool := vs.flatMap fun v => bitsOf w v.toNat

/-- The bit at bit address `j` of a list of bits, 0 beyond its end (R52). -/
def bitOfList (l : List Bool) (j : Nat) : Bool := l.getD j false

/-- The bit at bit address `j` of a list of bytes: bit `7 − (j mod 8)` of byte `j div 8`, 0 beyond the
end (R9, R52). -/
def bitOfBytes (bs : List Byte) (j : Nat) : Bool := (bs.getD (j / 8) 0).getLsbD (7 - j % 8)

/-! ### The decoder -/

/-- Why the decoder rejects. -/
inductive DecodeError
  /-- `VERSION` is not in 1..40, so the count widths are not defined (R7, R303). -/
  | versionOutOfRange
  /-- A BC.READ command word with n = 33..63 (R97, R115). -/
  | readWidthReserved
deriving DecidableEq, Repr

/-- The data of a numeric segment, from the bit address of its count field (R84, R86). -/
def decodeNum (sc : SizeClass) (bit : Nat → Bool) (j : Nat) : NumData :=
  let w := countWidth .num sc
  let c := readNat bit j w
  let k := j + w + 10 * (c / 3)
  { groups := fields bit 10 (c / 3) (j + w)
    rest := if c % 3 = 2 then .two (field bit k 7) else if c % 3 = 1 then .one (field bit k 4) else .none }

/-- The data of an alphanumeric segment, from the bit address of its count field (R84, R87). -/
def decodeAlnum (sc : SizeClass) (bit : Nat → Bool) (j : Nat) : AlnumData :=
  let w := countWidth .alnum sc
  let c := readNat bit j w
  { pairs := fields bit 11 (c / 2) (j + w)
    single := if c % 2 = 1 then some (field bit (j + w + 11 * (c / 2)) 6) else none }

/-- The bytes of a byte segment, from the bit address of its count field (R84, R88). -/
def decodeBytes (sc : SizeClass) (bit : Nat → Bool) (j : Nat) : List Byte :=
  let w := countWidth .byte sc
  fields bit 8 (readNat bit j w) (j + w)

/-- The 13-bit values of a kanji segment, from the bit address of its count field (R84, R89). -/
def decodeKanji (sc : SizeClass) (bit : Nat → Bool) (j : Nat) : List (BitVec 13) :=
  let w := countWidth .kanji sc
  fields bit 13 (readNat bit j w) (j + w)

/-- An ECI segment, from the bit address of its first selector bit (R90, R241). -/
def decodeEci (bit : Nat → Bool) (j : Nat) : Instr :=
  if bit j = false then .eci7 (field bit (j + 1) 7)
  else if bit (j + 1) = false then .eci14 (field bit (j + 2) 14)
  else if bit (j + 2) = false then .eci21 (field bit (j + 3) 21)
  else .eciBad

/-- The numeric instruction of a size class. -/
def numInstr : SizeClass → NumData → Instr
  | .sc0 => .numSc0
  | .sc1 => .numSc1
  | .sc2 => .numSc2

/-- The alphanumeric instruction of a size class. -/
def alnumInstr : SizeClass → AlnumData → Instr
  | .sc0 => .alnumSc0
  | .sc1 => .alnumSc1
  | .sc2 => .alnumSc2

/-- The byte instruction of a size class. -/
def byteInstr : SizeClass → List Byte → Instr
  | .sc0 => .byteSc0
  | .sc1 => .byteSc1
  | .sc2 => .byteSc2

/-- The kanji instruction of a size class. -/
def kanjiInstr : SizeClass → List (BitVec 13) → Instr
  | .sc0 => .kanjiSc0
  | .sc1 => .kanjiSc1
  | .sc2 => .kanjiSc2

/-- The segment at bit address `j`, in a stream of size class `sc` (R80, R81, R94): the four bits of the
mode indicator select the row, all sixteen listed. -/
def decodeSegment (sc : SizeClass) (bit : Nat → Bool) (j : Nat) : Instr :=
  match bit j, bit (j + 1), bit (j + 2), bit (j + 3) with
  | false, false, false, false => .term
  | false, false, false, true  => numInstr sc (decodeNum sc bit (j + 4))
  | false, false, true,  false => alnumInstr sc (decodeAlnum sc bit (j + 4))
  | false, false, true,  true  => .rsvd3
  | false, true,  false, false => byteInstr sc (decodeBytes sc bit (j + 4))
  | false, true,  false, true  => .rsvd5
  | false, true,  true,  false => .rsvd6
  | false, true,  true,  true  => decodeEci bit (j + 4)
  | true,  false, false, false => kanjiInstr sc (decodeKanji sc bit (j + 4))
  | true,  false, false, true  => .rsvd9
  | true,  false, true,  false => .rsvd10
  | true,  false, true,  true  => .rsvd11
  | true,  true,  false, false => .rsvd12
  | true,  true,  false, true  => .rsvd13
  | true,  true,  true,  false => .rsvd14
  | true,  true,  true,  true  => .rsvd15

/-- The segment at bit address `j` of the stream of a symbol of the given version (R82, R303). -/
def decodeStream (version : BitVec 6) (bit : Nat → Bool) (j : Nat) : Except DecodeError Instr :=
  match sizeClass version with
  | none => .error .versionOutOfRange
  | some sc => .ok (decodeSegment sc bit j)

/-- A command word of the Bit Cursor (R97): bit 6 selects, bits 5..0 are `n`, ignored by BC.AVAIL;
n = 33..63 is reserved (R115). -/
def decodeCommand (w : BitVec 7) : Except DecodeError Instr :=
  if w.getLsbD 6 then .ok .bcAvail
  else if (w.extractLsb' 0 6).toNat ≤ 32 then .ok (.bcRead (w.extractLsb' 0 6))
  else .error .readWidthReserved

/-! ### The encoder -/

/-- The bits of the rest of a numeric segment (R86). -/
def NumRest.encode : NumRest → List Bool
  | .none => []
  | .one g1 => bitsOf 4 g1.toNat
  | .two g2 => bitsOf 7 g2.toNat

/-- The bits of the single of an alphanumeric segment (R87). -/
def singleBits : Option (BitVec 6) → List Bool
  | none => []
  | some s => bitsOf 6 s.toNat

/-- Format N of R80: `mode=0001 | count | g3 ... | g2 or g1`. -/
def encodeNum (sc : SizeClass) (d : NumData) : List Bool :=
  [false, false, false, true] ++ bitsOf (countWidth .num sc) d.count ++ fieldBits d.groups ++ d.rest.encode

/-- Format A of R80: `mode=0010 | count | p ... | s`. -/
def encodeAlnum (sc : SizeClass) (d : AlnumData) : List Bool :=
  [false, false, true, false] ++ bitsOf (countWidth .alnum sc) d.count ++ fieldBits d.pairs ++ singleBits d.single

/-- Format B of R80: `mode=0100 | count | b ...`. -/
def encodeByte (sc : SizeClass) (bs : List Byte) : List Bool :=
  [false, true, false, false] ++ bitsOf (countWidth .byte sc) bs.length ++ fieldBits bs

/-- Format K of R80: `mode=1000 | count | k ...`. -/
def encodeKanji (sc : SizeClass) (ks : List (BitVec 13)) : List Bool :=
  [true, false, false, false] ++ bitsOf (countWidth .kanji sc) ks.length ++ fieldBits ks

/-- The bits of an instruction, first bit first: a segment as R80 lays it out, or the 7-bit command word of
R97. -/
def encode : Instr → List Bool
  | .numSc0 d => encodeNum .sc0 d
  | .numSc1 d => encodeNum .sc1 d
  | .numSc2 d => encodeNum .sc2 d
  | .alnumSc0 d => encodeAlnum .sc0 d
  | .alnumSc1 d => encodeAlnum .sc1 d
  | .alnumSc2 d => encodeAlnum .sc2 d
  | .byteSc0 bs => encodeByte .sc0 bs
  | .byteSc1 bs => encodeByte .sc1 bs
  | .byteSc2 bs => encodeByte .sc2 bs
  | .kanjiSc0 ks => encodeKanji .sc0 ks
  | .kanjiSc1 ks => encodeKanji .sc1 ks
  | .kanjiSc2 ks => encodeKanji .sc2 ks
  | .eci7 v => [false, true, true, true, false] ++ bitsOf 7 v.toNat
  | .eci14 v => [false, true, true, true, true, false] ++ bitsOf 14 v.toNat
  | .eci21 v => [false, true, true, true, true, true, false] ++ bitsOf 21 v.toNat
  | .eciBad => [false, true, true, true, true, true, true]
  | .term => [false, false, false, false]
  | .rsvd3 => [false, false, true, true]
  | .rsvd5 => [false, true, false, true]
  | .rsvd6 => [false, true, true, false]
  | .rsvd9 => [true, false, false, true]
  | .rsvd10 => [true, false, true, false]
  | .rsvd11 => [true, false, true, true]
  | .rsvd12 => [true, true, false, false]
  | .rsvd13 => [true, true, false, true]
  | .rsvd14 => [true, true, true, false]
  | .rsvd15 => [true, true, true, true]
  | .bcRead n => false :: bitsOf 6 n.toNat
  | .bcAvail => [true, false, false, false, false, false, false]

/-- A command word from its seven bits (R97). -/
def commandWord (bits : List Bool) : BitVec 7 := BitVec.ofNat 7 (readNat (bitOfList bits) 0 7)

/-! ### Words of spec/opcode_table.json -/

/-- What a word of the opcode table is: the leading bits of a segment, zeros after them, or a command word
of the Bit Cursor. -/
inductive TableWord
  | segment (bits : List Bool)
  | command (w : BitVec 7)
deriving DecidableEq, Repr

/-- Where the bits of a table word go. The table writes a row's leading bits as one number, the first bit of
the segment most significant, over 4 to 7 bits (R96). When the row's own width is given (4 to 7) that number is laid
out over it; a 7-bit word is the ECI.21 or ECI.BAD row (0x3E, 0x3F: as BC.READ these would be reserved, R115) or else a
cursor command. When whole bytes are given, the width is read from the number itself: below 0x10 a 4-bit row, 0x1E the
6-bit row ECI.14, other numbers below 0x80 as the 7-bit rows, and from 0x80 on plain stream bytes
(notes/assumptions/9.md: DESIGN CHOICE). -/
def tableLayout (nbits w : Nat) : TableWord :=
  if nbits < 7 then .segment (bitsOf nbits w)
  else if w = 0x3E ∨ w = 0x3F then .segment (bitsOf 7 w)
  else if nbits = 7 then .command (BitVec.ofNat 7 w)
  else if w < 0x10 then .segment (bitsOf 4 w)
  else if w = 0x1E then .segment (bitsOf 6 w)
  else if w < 0x80 then .command (BitVec.ofNat 7 w)
  else .segment (bitsOf nbits w)

/-- The instruction the decoder reads from a word of the opcode table, in a stream of size class 0, the class
of the version that `State.reset` holds (notes/assumptions/2.md and 9.md). -/
def decodeTableWord (nbits w : Nat) : Option Instr :=
  match tableLayout nbits w with
  | .segment bits => some (decodeSegment .sc0 (bitOfList bits) 0)
  | .command c => (decodeCommand c).toOption

end Sys2Proof
end

