-- ==== Sys2Proof/Machine/State.lean ====
section
/-! DEFINITION. The state of one BCSD instance, as plain data. R20 gives the tuple
`(STATUS, CAUSE, OFFSET, TEXT, BYTES, CHUNKS)`; beside it stand the launch inputs `(BUF, LEN, VERSION)` of R21, the two
open parameters of R6 (`SJIS_TABLE`, `UTF8_DECODE`), the host's pending command (START of R32, the cursor command
word of R97, a change of inputs of R307) and the value the last cursor command returned (R111, R114). -/

namespace Sys2Proof.Machine

/-- STATUS (R24). -/
inductive Status
  | idle | run | done | fault
deriving DecidableEq, Repr

/-- CAUSE (R25, R265). -/
inductive Cause
  | none | numGroup3 | numGroup2 | numGroup1 | kanjiUnmapped | alnumIndex | unterminated
deriving DecidableEq, Repr

/-- A chunk of the Decoded Result (R27). -/
inductive Chunk
  | numeric (text : List CodeUnit)
  | alphanumeric (text : List CodeUnit)
  | byte (bytes : List Byte) (text : List CodeUnit)
  | kanji (bytes : List Byte) (text : List CodeUnit)
  | eci (assignmentNumber : Int)
deriving DecidableEq, Repr

/-- Which `UTF8_DECODE` the block is configured with (R204, D12): the recommended default of R205, or any
other, of which nothing is known (`Config.utf8Decode`). -/
inductive Utf8Decoder
  | strict
  | other (k : Nat)
deriving DecidableEq, Repr

/-- The codeword buffer's bytes: (address, byte) pairs, addresses strictly rising, no zero byte listed. An address that is
not listed reads as 0 (R52: beyond the end; within it, the zero bytes of BUF). -/
abbrev Memory := List Host.Cell

/-- What the host may ask of the block. -/
inductive HostCmd
  /-- START (R32, R300). -/
  | start
  /-- The host places `BUF` (and with it `LEN`) and `VERSION` (R304, R307). -/
  | load (buf : List Byte) (version : BitVec 6)
  /-- The host sets the configuration `SJIS_TABLE` and `UTF8_DECODE` (R6, R304, R307). -/
  | configure (sjis : List (CodeUnit × CodeUnit)) (utf8 : Utf8Decoder)
  /-- A command word of the Bit Cursor (R97, D18). -/
  | cursor (w : BitVec 7)
deriving DecidableEq, Repr

/-- The whole state. -/
structure State where
  /-- `BUF`, the codeword buffer (R21, R50). -/
  mem : Memory
  /-- `LEN`, its length in bytes (R21). -/
  len : Nat
  /-- `VERSION`, 6 bits (R21, R32). -/
  version : BitVec 6
  /-- `SJIS_TABLE` as (code, code unit) pairs; the first pair with a code counts (R34, R225). -/
  sjis : List (CodeUnit × CodeUnit)
  /-- Which `UTF8_DECODE` is configured (R204). -/
  utf8 : Utf8Decoder
  /-- `STATUS` (R24). -/
  status : Status
  /-- `CAUSE` (R25). -/
  cause : Cause
  /-- `OFFSET`, the bit address of the next unread bit (R22). -/
  offset : Nat
  /-- `TEXT` (R28). -/
  text : List CodeUnit
  /-- `BYTES` (R26). -/
  bytes : List Byte
  /-- `CHUNKS` (R27). -/
  chunks : List Chunk
  /-- `VERSION` as START latched it (D1): the version of the Decoded Result (R29), stable until the next START (R308). -/
  resultVersion : BitVec 6
  /-- The host's command that the next step takes up, if there is one (R32, R97). -/
  pending : Option HostCmd
  /-- The value the last cursor command returned to its caller (R111, R114). The model's own field. -/
  reply : Nat
deriving DecidableEq, Repr

/-- How the machine can stop. -/
inductive Fault
  /-- No step is enabled: `STATUS` is not RUN and no host command is pending (R131, R310). Raised by `step` only.
  Safe: the spec gives the block no step there. -/
  | noStepEnabled
deriving DecidableEq, Repr

/-- What the model gives no meaning to. -/
inductive Refusal
  /-- The instruction has no meaning yet; named by its mnemonic. Raised by `exec` only. Safe. -/
  | notModelled (mnemonic : String)
  /-- BC.READ with n > 32 (R115, R287). Raised by `exec`, and by `step` for a pending command word outside RUN. Safe: the
  spec refuses it. -/
  | readTooWide
  /-- START, or a step of a run, with `VERSION` outside 1..40 (R303, R287). Raised by `step`. Safe: the spec refuses
  the START, so no run reaches the other case. -/
  | versionOutOfRange
  /-- START while `STATUS` = RUN (R305, R287). Raised by `step`. Safe: the spec refuses it. -/
  | startWhileRunning
  /-- The host gives the Bit Cursor a command word while `STATUS` = RUN, where only the sequencer reads or writes OFFSET
  and the host has no step (R5, R38, R269). Raised by `step`. Safe: the spec allows none there. -/
  | cursorWhileRunning
  /-- The host changes `BUF`, `LEN`, `VERSION` or the configuration while `STATUS` = RUN (R65, R287, R307). Raised by
  `step`. Safe: the spec refuses it. -/
  | inputsWhileRunning
deriving DecidableEq, Repr

/-- The machine right after reset. "The block's reset is the start of a decode" (R36): OFFSET 0, the lists empty,
CAUSE 0, STATUS RUN. The launch inputs and the configuration are not reset by START; here: an empty buffer,
VERSION 1 (and so the version of the decode is 1), the table of `Config` and the recommended default decoder (notes/assumptions/1.md to 4.md). -/
def State.reset : State where
  mem := []
  len := 0
  version := 1
  sjis := Config.sjisTable
  utf8 := .strict
  status := .run
  cause := .none
  offset := 0
  text := []
  bytes := []
  chunks := []
  resultVersion := 1
  pending := none
  reply := 0

end Sys2Proof.Machine
end

