-- ==== Sys2Proof/Machine/Operands.lean ====
section
/-! DEFINITION. What each data field of a segment means: the digits of a numeric group (R162 to R164), the characters of an
alphanumeric pair or single (R181 to R185), the Shift-JIS code of a 13-bit value and its code unit (R222 to R226), the
text of a byte list (R203 to R205), and the walk over the fields of a segment (R270). -/

namespace Sys2Proof.Machine

/-- What one field adds to the segment: code units and bytes. -/
structure Emit where
  text  : List CodeUnit
  bytes : List Byte
deriving DecidableEq, Repr

/-! ### Numeric groups -/

/-- Decimal digits as characters and as ASCII bytes (R166). -/
def emitDigits (ds : List Nat) : Emit :=
  { text := ds.map fun d => BitVec.ofNat 16 (0x0030 + d), bytes := ds.map fun d => BitVec.ofNat 8 (0x30 + d) }

/-- A 10-bit group: three digits, hundreds first; 1000 or more is a fault (R162). -/
def emitGroup3 (g : BitVec 10) : Except Cause Emit :=
  let v := g.toNat
  if 1000 ≤ v then .error .numGroup3 else .ok (emitDigits [v / 100, v / 10 % 10, v % 10])

/-- A 7-bit group: two digits; 100 or more is a fault (R163). -/
def emitGroup2 (g : BitVec 7) : Except Cause Emit :=
  let v := g.toNat
  if 100 ≤ v then .error .numGroup2 else .ok (emitDigits [v / 10, v % 10])

/-- A 4-bit group: one digit; 10 or more is a fault (R164). -/
def emitGroup1 (g : BitVec 4) : Except Cause Emit :=
  let v := g.toNat
  if 10 ≤ v then .error .numGroup1 else .ok (emitDigits [v])

/-! ### Alphanumeric characters -/

/-- `ALPHABET` (R181). -/
def alphabet : List CodeUnit :=
  [0x30, 0x31, 0x32, 0x33, 0x34, 0x35, 0x36, 0x37, 0x38, 0x39,
   0x41, 0x42, 0x43, 0x44, 0x45, 0x46, 0x47, 0x48, 0x49, 0x4A, 0x4B, 0x4C, 0x4D,
   0x4E, 0x4F, 0x50, 0x51, 0x52, 0x53, 0x54, 0x55, 0x56, 0x57, 0x58, 0x59, 0x5A,
   0x20, 0x24, 0x25, 0x2A, 0x2B, 0x2D, 0x2E, 0x2F, 0x3A]

/-- The character of an index and its byte (R186); an index the table lacks is a fault (R185). -/
def emitIndex (i : Nat) : Except Cause Emit :=
  match alphabet[i]? with
  | some u => .ok { text := [u], bytes := [BitVec.setWidth 8 u] }
  | none => .error .alnumIndex

/-- An 11-bit pair: the characters of `v div 45` and `v mod 45`, the first index checked first (R183, R185). -/
def emitPair (p : BitVec 11) : Except Cause Emit :=
  match emitIndex (p.toNat / 45) with
  | .error c => .error c
  | .ok a =>
    match emitIndex (p.toNat % 45) with
    | .error c => .error c
    | .ok b => .ok { text := a.text ++ b.text, bytes := a.bytes ++ b.bytes }

/-- A 6-bit single (R184). -/
def emitSingle (i : BitVec 6) : Except Cause Emit := emitIndex i.toNat

/-! ### Kanji values -/

/-- The double-byte code of a 13-bit value (R222). -/
def kanjiCode (k : BitVec 13) : CodeUnit :=
  let c := (k.toNat / 0xC0) <<< 8 ||| (k.toNat % 0xC0)
  BitVec.ofNat 16 (if c < 0x1F00 then c + 0x8140 else c + 0xC140)

/-- A 13-bit value: high byte, low byte, and the code unit of its code; a code the table lacks is a fault
(R224 to R226). -/
def emitKanji (table : List (CodeUnit × CodeUnit)) (k : BitVec 13) : Except Cause Emit :=
  let c := kanjiCode k
  match table.lookup c with
  | some u => .ok { text := [u], bytes := [BitVec.setWidth 8 (c >>> 8), BitVec.setWidth 8 c] }
  | none => .error .kanjiUnmapped

/-! ### Bytes and their text -/

/-- A payload byte, verbatim; the text comes from the whole list at the end (R202, R203). -/
def emitByte (b : Byte) : Except Cause Emit := .ok { text := [], bytes := [b] }

/-- The UTF-16 code units of a scalar value (R205). -/
def utf16Units (v : Nat) : List CodeUnit :=
  if v < 0x10000 then [BitVec.ofNat 16 v]
  else [BitVec.ofNat 16 (0xD800 + ((v - 0x10000) >>> 10)), BitVec.ofNat 16 (0xDC00 + ((v - 0x10000) &&& 0x3FF))]

/-- What a first byte announces: how many bytes the sequence has and between which bounds its second byte lies
(the rows of R205). -/
inductive Utf8Lead
  | one
  | two
  | three (lo hi : Nat)
  | four (lo hi : Nat)
  | bad
deriving DecidableEq, Repr

/-- The rows of R205 by first byte. -/
def utf8Lead (n : Nat) : Utf8Lead :=
  if n ≤ 0x7F then .one
  else if n < 0xC2 then .bad
  else if n ≤ 0xDF then .two
  else if n = 0xE0 then .three 0xA0 0xBF
  else if n ≤ 0xEC then .three 0x80 0xBF
  else if n = 0xED then .three 0x80 0x9F
  else if n ≤ 0xEF then .three 0x80 0xBF
  else if n = 0xF0 then .four 0x90 0xBF
  else if n ≤ 0xF3 then .four 0x80 0xBF
  else if n = 0xF4 then .four 0x80 0x8F
  else .bad

/-- `lo <= b <= hi`. -/
def byteIn (lo hi : Nat) (b : Byte) : Bool := decide (lo ≤ b.toNat) && decide (b.toNat ≤ hi)

/-- The scalar value of a two-byte sequence (R205). -/
def scalar2 (b0 b1 : Byte) : Nat := ((b0.toNat &&& 0x1F) <<< 6) + (b1.toNat &&& 0x3F)

/-- The scalar value of a three-byte sequence (R205). -/
def scalar3 (b0 b1 b2 : Byte) : Nat :=
  ((b0.toNat &&& 0x0F) <<< 12) + ((b1.toNat &&& 0x3F) <<< 6) + (b2.toNat &&& 0x3F)

/-- The scalar value of a four-byte sequence (R205). -/
def scalar4 (b0 b1 b2 b3 : Byte) : Nat :=
  ((b0.toNat &&& 0x07) <<< 18) + ((b1.toNat &&& 0x3F) <<< 12) + ((b2.toNat &&& 0x3F) <<< 6) + (b3.toNat &&& 0x3F)

/-- The recommended default of `UTF8_DECODE`: strict UTF-8 to UTF-16 code units, all or nothing (R205). -/
def utf8Strict : List Byte → Option (List CodeUnit)
  | [] => some []
  | b0 :: r0 =>
    match utf8Lead b0.toNat with
    | .one => (utf8Strict r0).map fun us => utf16Units b0.toNat ++ us
    | .bad => none
    | .two =>
      match r0 with
      | b1 :: r1 =>
        if byteIn 0x80 0xBF b1 then (utf8Strict r1).map fun us => utf16Units (scalar2 b0 b1) ++ us else none
      | [] => none
    | .three lo hi =>
      match r0 with
      | b1 :: b2 :: r2 =>
        if byteIn lo hi b1 && byteIn 0x80 0xBF b2 then
          (utf8Strict r2).map fun us => utf16Units (scalar3 b0 b1 b2) ++ us
        else none
      | _ => none
    | .four lo hi =>
      match r0 with
      | b1 :: b2 :: b3 :: r3 =>
        if byteIn lo hi b1 && byteIn 0x80 0xBF b2 && byteIn 0x80 0xBF b3 then
          (utf8Strict r3).map fun us => utf16Units (scalar4 b0 b1 b2 b3) ++ us
        else none
      | _ => none

/-- `UTF8_DECODE` as configured (R204). The empty list has the empty text whatever the decoder (R207 a). -/
def utf8Decode (d : Utf8Decoder) (b : List Byte) : Option (List CodeUnit) :=
  match d with
  | .strict => utf8Strict b
  | .other k => if b = [] then some [] else Config.utf8Decode k b

/-- The text of a byte segment: what `UTF8_DECODE` yields, or empty where it says `invalid` (R203). -/
def utf8Text (d : Utf8Decoder) (b : List Byte) : List CodeUnit := (utf8Decode d b).getD []

/-! ### The walk over a segment -/

/-- A segment under way: how many bits of it have been read, and the working lists SEGTEXT and SEGBYTES of
R30. -/
structure Work where
  used  : Nat
  text  : List CodeUnit
  bytes : List Byte
deriving DecidableEq, Repr

/-- How an unpacker ends: with a fault and the number of bits read by then, the offending field included
(R271), or with the whole segment. -/
abbrev Unpacked := Except (Cause × Nat) Work

/-- After the indicator and the length prefix (R80). -/
def Work.start (m : ContentMode) (sc : SizeClass) : Work := { used := 4 + countWidth m sc, text := [], bytes := [] }

/-- The fields one after another: each is read, then judged; the first that fails ends the walk (R270, R271). -/
def unpackFields {w : Nat} (emit : BitVec w → Except Cause Emit) : List (BitVec w) → Work → Unpacked
  | [], k => .ok k
  | v :: vs, k =>
    match emit v with
    | .error c => .error (c, k.used + w)
    | .ok e => unpackFields emit vs { used := k.used + w, text := k.text ++ e.text, bytes := k.bytes ++ e.bytes }

/-- The rest of a numeric segment (R163 to R165). -/
def unpackNumRest : NumRest → Work → Unpacked
  | .none, k => .ok k
  | .one g1, k => unpackFields emitGroup1 [g1] k
  | .two g2, k => unpackFields emitGroup2 [g2] k

/-- UnpackNumeric (R160). -/
def unpackNumeric (sc : SizeClass) (d : NumData) : Unpacked :=
  match unpackFields emitGroup3 d.groups (Work.start .num sc) with
  | .error e => .error e
  | .ok k => unpackNumRest d.rest k

/-- UnpackAlphanumeric (R180). -/
def unpackAlphanumeric (sc : SizeClass) (d : AlnumData) : Unpacked :=
  match unpackFields emitPair d.pairs (Work.start .alnum sc) with
  | .error e => .error e
  | .ok k => unpackFields emitSingle d.single.toList k

/-- UnpackByte (R200): the bytes, then the text of the whole list. -/
def unpackByte (d : Utf8Decoder) (sc : SizeClass) (bs : List Byte) : Unpacked :=
  match unpackFields emitByte bs (Work.start .byte sc) with
  | .error e => .error e
  | .ok k => .ok { k with text := utf8Text d k.bytes }

/-- UnpackKanji (R220). -/
def unpackKanji (table : List (CodeUnit × CodeUnit)) (sc : SizeClass) (ks : List (BitVec 13)) : Unpacked :=
  unpackFields (emitKanji table) ks (Work.start .kanji sc)

end Sys2Proof.Machine
end

