-- ==== Sys2Proof/Machine/Ops.lean ====
section
/-! DEFINITION. The named operations over the state: the codeword buffer and the Bit Cursor over it (R50 to R59,
R110 to R118), taking a fault (R266), accumulating the result (R135, R136), the end of a run (R133, R138), and START,
the only way on from a fault (R272, R300). -/

namespace Sys2Proof.Machine

/-! ### The memory that holds BUF -/

/-- What an address that is not listed reads as (R52). -/
def Memory.unlisted : Byte := 0

/-- The byte at an address. -/
def Memory.read : Memory → Nat → Byte
  | [], _ => Memory.unlisted
  | (a, b) :: m, x => if a = x then b else Memory.read m x

/-- `m` with byte `b` at address `x`, in canonical form. -/
def Memory.write : Memory → Nat → Byte → Memory
  | [], x, b => if b = Memory.unlisted then [] else [(x, b)]
  | (a, c) :: m, x, b =>
    if x < a then (if b = Memory.unlisted then (a, c) :: m else (x, b) :: (a, c) :: m)
    else if x = a then (if b = Memory.unlisted then m else (x, b) :: m)
    else (a, c) :: Memory.write m x b

/-- `m` with the bytes of a list at addresses `x`, `x + 1`, ... -/
def Memory.writeList : Memory → Nat → List Byte → Memory
  | m, _, [] => m
  | m, x, b :: bs => Memory.writeList (Memory.write m x b) (x + 1) bs

/-- `m` without what it holds from address `x` on. -/
def Memory.below (m : Memory) (x : Nat) : Memory := m.filter fun c => decide (c.1 < x)

/-- The memory that holds a buffer from address 0 (R21, R60). -/
def Memory.ofBytes (buf : List Byte) : Memory := Memory.writeList [] 0 buf

/-- Every address of the memory is at least `x`, they rise strictly, and no listed byte is the one an unlisted
address reads as. -/
def Memory.wfFrom : Nat → Memory → Bool
  | _, [] => true
  | x, (a, b) :: m => decide (x ≤ a) && decide (b ≠ Memory.unlisted) && Memory.wfFrom (a + 1) m

/-- The canonical form: equal memories are equal lists. -/
def Memory.wf (m : Memory) : Bool := Memory.wfFrom 0 m

/-! ### The Bit Cursor -/

/-- `BufBit(j)`: bit `7 − (j mod 8)` of byte `j div 8` of BUF, 0 from bit address `8×LEN` on (R52). -/
def State.bufBit (s : State) (j : Nat) : Bool :=
  if j < 8 * s.len then (Memory.read s.mem (j / 8)).getLsbD (7 - j % 8) else false

/-- `MemRead(j, n)` (R53). It changes nothing (R59). -/
def State.memRead (s : State) (j n : Nat) : Nat := readNat s.bufBit j n

/-- `OFFSET <- OFFSET + n`, the only effect of ReadBits(n) (R111). -/
def State.advance (n : Nat) (s : State) : State := { s with offset := s.offset + n }

/-- `ReadBits(n)`: the value and the state after it (R111). -/
def State.readBits (n : Nat) (s : State) : Nat × State := (s.memRead s.offset n, s.advance n)

/-- `Available() = max(0, 8×LEN − OFFSET)` (R114): the subtraction of natural numbers stops at 0. -/
def State.available (s : State) : Nat := 8 * s.len - s.offset

/-- A cursor command hands its value to its caller (R111, R114). -/
def State.answer (v : Nat) (s : State) : State := { s with reply := v }

/-! ### Faults, results, the end of a run -/

/-- Taking a fault: `CAUSE <- cause; STATUS <- FAULT`, and nothing else (R266). -/
def State.raise (c : Cause) (s : State) : State := { s with cause := c, status := .fault }

/-- `STATUS <- DONE` (R133, R138). -/
def State.finish (s : State) : State := { s with status := .done }

/-- Accumulation after a content segment (R135). -/
def State.accumulate (c : Chunk) (t : List CodeUnit) (b : List Byte) (s : State) : State :=
  { s with chunks := s.chunks ++ [c], text := s.text ++ t, bytes := s.bytes ++ b }

/-- Accumulation after an ECI segment: the chunk only (R136). -/
def State.accumulateEci (a : Int) (s : State) : State := { s with chunks := s.chunks ++ [.eci a] }

/-- START's reset values (R36, R300), with VERSION latched for the result (D1, R29). Nothing returns from a fault; a new START is the only way on (R272). -/
def State.launch (s : State) : State :=
  { s with offset := 0, text := [], bytes := [], chunks := [], cause := .none, status := .run,
           resultVersion := s.version }

end Sys2Proof.Machine
end

