-- ==== Sys2Proof/Machine/Segment.lean ====
section
/-! DEFINITION. How a segment ends: a content segment (R135, R266, R271), an ECI segment (R136), a reserved indicator (R137). -/

namespace Sys2Proof.Machine

/-- The end of a content segment: OFFSET moves past what was read; then the whole segment is accumulated (R135), or
the fault is taken and nothing of the segment is (R266, R271). -/
def closeSegment (chunk : Work → Chunk) (u : Unpacked) (s : State) : State :=
  match u with
  | .ok k => (s.advance k.used).accumulate (chunk k) k.text k.bytes
  | .error (c, used) => (s.advance used).raise c

/-- A numeric segment (R160). -/
def numericSegment (sc : SizeClass) (d : NumData) (s : State) : State :=
  closeSegment (fun k => .numeric k.text) (unpackNumeric sc d) s

/-- An alphanumeric segment (R180). -/
def alphanumericSegment (sc : SizeClass) (d : AlnumData) (s : State) : State :=
  closeSegment (fun k => .alphanumeric k.text) (unpackAlphanumeric sc d) s

/-- A byte segment (R200). -/
def byteSegment (sc : SizeClass) (bs : List Byte) (s : State) : State :=
  closeSegment (fun k => .byte k.bytes k.text) (unpackByte s.utf8 sc bs) s

/-- A kanji segment (R220). -/
def kanjiSegment (sc : SizeClass) (ks : List (BitVec 13)) (s : State) : State :=
  closeSegment (fun k => .kanji k.bytes k.text) (unpackKanji s.sjis sc ks) s

/-- An ECI segment of `bits` bits with assignment number `a` (R240, R242). -/
def eciSegment (bits : Nat) (a : Int) (s : State) : State := (s.advance bits).accumulateEci a

/-- A reserved indicator: its four bits are consumed and nothing else happens (R137). -/
def reservedSegment (s : State) : State := s.advance 4

end Sys2Proof.Machine
end

