-- ==== Sys2Proof/Machine/Alphanumeric.lean ====
section
/-! DEFINITION. ALNUM in the three size classes (R180 to R187). -/

namespace Sys2Proof.Machine

/-- ALNUM.SC0 (R180). -/
def execAlnumSc0 (d : AlnumData) (s : State) : Host.Outcome State Fault Refusal := .next (alphanumericSegment .sc0 d s)

/-- ALNUM.SC1 (R180). -/
def execAlnumSc1 (d : AlnumData) (s : State) : Host.Outcome State Fault Refusal := .next (alphanumericSegment .sc1 d s)

/-- ALNUM.SC2 (R180). -/
def execAlnumSc2 (d : AlnumData) (s : State) : Host.Outcome State Fault Refusal := .next (alphanumericSegment .sc2 d s)

end Sys2Proof.Machine
end

