-- ==== Sys2Proof/Machine/ByteMode.lean ====
section
/-! DEFINITION. BYTE in the three size classes (R200 to R207). -/

namespace Sys2Proof.Machine

/-- BYTE.SC0 (R200). -/
def execByteSc0 (bs : List Byte) (s : State) : Host.Outcome State Fault Refusal := .next (byteSegment .sc0 bs s)

/-- BYTE.SC1 (R200). -/
def execByteSc1 (bs : List Byte) (s : State) : Host.Outcome State Fault Refusal := .next (byteSegment .sc1 bs s)

/-- BYTE.SC2 (R200). -/
def execByteSc2 (bs : List Byte) (s : State) : Host.Outcome State Fault Refusal := .next (byteSegment .sc2 bs s)

end Sys2Proof.Machine
end

