-- ==== Sys2Proof/Machine/Control.lean ====
section
/-! DEFINITION. The explicit terminator (R133) and the ten reserved indicators (R92, R137). -/

namespace Sys2Proof.Machine

/-- TERM: the indicator's four bits, then `STATUS <- DONE` (R133). -/
def execTerm (s : State) : Host.Outcome State Fault Refusal := .next (s.advance 4).finish

/-- RSVD.3 (R137). -/
def execRsvd3 (s : State) : Host.Outcome State Fault Refusal := .next (reservedSegment s)

/-- RSVD.5 (R137). -/
def execRsvd5 (s : State) : Host.Outcome State Fault Refusal := .next (reservedSegment s)

/-- RSVD.6 (R137). -/
def execRsvd6 (s : State) : Host.Outcome State Fault Refusal := .next (reservedSegment s)

/-- RSVD.9 (R137). -/
def execRsvd9 (s : State) : Host.Outcome State Fault Refusal := .next (reservedSegment s)

/-- RSVD.10 (R137). -/
def execRsvd10 (s : State) : Host.Outcome State Fault Refusal := .next (reservedSegment s)

/-- RSVD.11 (R137). -/
def execRsvd11 (s : State) : Host.Outcome State Fault Refusal := .next (reservedSegment s)

/-- RSVD.12 (R137). -/
def execRsvd12 (s : State) : Host.Outcome State Fault Refusal := .next (reservedSegment s)

/-- RSVD.13 (R137). -/
def execRsvd13 (s : State) : Host.Outcome State Fault Refusal := .next (reservedSegment s)

/-- RSVD.14 (R137). -/
def execRsvd14 (s : State) : Host.Outcome State Fault Refusal := .next (reservedSegment s)

/-- RSVD.15 (R137). -/
def execRsvd15 (s : State) : Host.Outcome State Fault Refusal := .next (reservedSegment s)

end Sys2Proof.Machine
end

