-- ==== Sys2Proof/Machine/Cursor.lean ====
section
/-! DEFINITION. The two commands of the Bit Cursor (R97, R110 to R118). -/

namespace Sys2Proof.Machine

/-- BC.READ: ReadBits(n) for n = 0..32, its value returned to the caller (R111); a larger n is refused (R115). -/
def execBcRead (n : BitVec 6) (s : State) : Host.Outcome State Fault Refusal :=
  if n.toNat ≤ 32 then .next ((s.readBits n.toNat).2.answer (s.readBits n.toNat).1) else .refused .readTooWide

/-- BC.AVAIL: Available(), its value returned to the caller, nothing else written (R114). -/
def execBcAvail (s : State) : Host.Outcome State Fault Refusal := .next (s.answer s.available)

end Sys2Proof.Machine
end

