-- ==== Sys2Proof/Machine/Eci.lean ====
section
/-! DEFINITION. The four forms of the ECI segment (R240 to R246). -/

namespace Sys2Proof.Machine

/-- ECI.7: selector `0`, 12 bits in all (R241, R242). -/
def execEci7 (v : BitVec 7) (s : State) : Host.Outcome State Fault Refusal := .next (eciSegment 12 v.toNat s)

/-- ECI.14: selector `10`, 20 bits in all (R241, R242). -/
def execEci14 (v : BitVec 14) (s : State) : Host.Outcome State Fault Refusal := .next (eciSegment 20 v.toNat s)

/-- ECI.21: selector `110`, 28 bits in all (R241, R242). -/
def execEci21 (v : BitVec 21) (s : State) : Host.Outcome State Fault Refusal := .next (eciSegment 28 v.toNat s)

/-- ECI.BAD: selector `111`, 7 bits in all, the sentinel −1 and no fault (R243, R268). -/
def execEciBad (s : State) : Host.Outcome State Fault Refusal := .next (eciSegment 7 (-1) s)

end Sys2Proof.Machine
end

