-- ==== Sys2Proof/Machine/Kanji.lean ====
section
/-! DEFINITION. KANJI in the three size classes (R220 to R228). -/

namespace Sys2Proof.Machine

/-- KANJI.SC0 (R220). -/
def execKanjiSc0 (ks : List (BitVec 13)) (s : State) : Host.Outcome State Fault Refusal := .next (kanjiSegment .sc0 ks s)

/-- KANJI.SC1 (R220). -/
def execKanjiSc1 (ks : List (BitVec 13)) (s : State) : Host.Outcome State Fault Refusal := .next (kanjiSegment .sc1 ks s)

/-- KANJI.SC2 (R220). -/
def execKanjiSc2 (ks : List (BitVec 13)) (s : State) : Host.Outcome State Fault Refusal := .next (kanjiSegment .sc2 ks s)

end Sys2Proof.Machine
end

