-- ==== Sys2Proof/Machine/Numeric.lean ====
section
/-! DEFINITION. NUM in the three size classes (R160 to R167). -/

namespace Sys2Proof.Machine

/-- NUM.SC0 (R160). -/
def execNumSc0 (d : NumData) (s : State) : Host.Outcome State Fault Refusal := .next (numericSegment .sc0 d s)

/-- NUM.SC1 (R160). -/
def execNumSc1 (d : NumData) (s : State) : Host.Outcome State Fault Refusal := .next (numericSegment .sc1 d s)

/-- NUM.SC2 (R160). -/
def execNumSc2 (d : NumData) (s : State) : Host.Outcome State Fault Refusal := .next (numericSegment .sc2 d s)

end Sys2Proof.Machine
end

