-- ==== Sys2Proof/Machine/Dispatch.lean ====
section
/-! DEFINITION. One arm per constructor of `Instr`: the dispatch of R134, with the cursor's commands beside it (R97). -/

namespace Sys2Proof.Machine

/-- The meaning of an instruction. -/
def exec (i : Instr) (s : State) : Host.Outcome State Fault Refusal :=
  match i with
  | .numSc0 d => Sys2Proof.Machine.execNumSc0 d s
  | .numSc1 d => Sys2Proof.Machine.execNumSc1 d s
  | .numSc2 d => Sys2Proof.Machine.execNumSc2 d s
  | .alnumSc0 d => Sys2Proof.Machine.execAlnumSc0 d s
  | .alnumSc1 d => Sys2Proof.Machine.execAlnumSc1 d s
  | .alnumSc2 d => Sys2Proof.Machine.execAlnumSc2 d s
  | .byteSc0 bs => Sys2Proof.Machine.execByteSc0 bs s
  | .byteSc1 bs => Sys2Proof.Machine.execByteSc1 bs s
  | .byteSc2 bs => Sys2Proof.Machine.execByteSc2 bs s
  | .kanjiSc0 ks => Sys2Proof.Machine.execKanjiSc0 ks s
  | .kanjiSc1 ks => Sys2Proof.Machine.execKanjiSc1 ks s
  | .kanjiSc2 ks => Sys2Proof.Machine.execKanjiSc2 ks s
  | .eci7 v => Sys2Proof.Machine.execEci7 v s
  | .eci14 v => Sys2Proof.Machine.execEci14 v s
  | .eci21 v => Sys2Proof.Machine.execEci21 v s
  | .eciBad => Sys2Proof.Machine.execEciBad s
  | .term => Sys2Proof.Machine.execTerm s
  | .rsvd3 => Sys2Proof.Machine.execRsvd3 s
  | .rsvd5 => Sys2Proof.Machine.execRsvd5 s
  | .rsvd6 => Sys2Proof.Machine.execRsvd6 s
  | .rsvd9 => Sys2Proof.Machine.execRsvd9 s
  | .rsvd10 => Sys2Proof.Machine.execRsvd10 s
  | .rsvd11 => Sys2Proof.Machine.execRsvd11 s
  | .rsvd12 => Sys2Proof.Machine.execRsvd12 s
  | .rsvd13 => Sys2Proof.Machine.execRsvd13 s
  | .rsvd14 => Sys2Proof.Machine.execRsvd14 s
  | .rsvd15 => Sys2Proof.Machine.execRsvd15 s
  | .bcRead n => Sys2Proof.Machine.execBcRead n s
  | .bcAvail => Sys2Proof.Machine.execBcAvail s

end Sys2Proof.Machine
end

