-- ==== Sys2Proof/Machine/Launch.lean ====
section
/-! DEFINITION. What the host does to the block (R32, R300 to R307, R97). The host acts between steps; an action stands in
`State.pending` and the next step takes it up. -/

namespace Sys2Proof.Machine

/-- START (R300): refused while a decode runs (R305) and for a version outside 1..40 (R303); otherwise the reset
values of R36. -/
def hostStart (s : State) : Host.Outcome State Fault Refusal :=
  if s.status = .run then .refused .startWhileRunning
  else
    match sizeClass s.version with
    | none => .refused .versionOutOfRange
    | some _ => .next s.launch

/-- The host places `BUF`, `LEN` and `VERSION` (R304): refused while a decode runs (R65, R307). -/
def hostLoad (buf : List Byte) (version : BitVec 6) (s : State) : Host.Outcome State Fault Refusal :=
  if s.status = .run then .refused .inputsWhileRunning
  else .next { s with mem := Memory.ofBytes buf, len := buf.length, version := version }

/-- The host sets the configuration (R304): refused while a decode runs (R307). -/
def hostConfigure (sjis : List (CodeUnit × CodeUnit)) (utf8 : Utf8Decoder) (s : State) :
    Host.Outcome State Fault Refusal :=
  if s.status = .run then .refused .inputsWhileRunning
  else .next { s with sjis := sjis, utf8 := utf8 }

/-- A command word of the Bit Cursor (R97): refused while a decode runs, since then only the sequencer reads or writes OFFSET
and the host has no step (R5, R38); otherwise decoded, and run as the instruction it is; the reserved words are refused
(R115). -/
def hostCursor (w : BitVec 7) (s : State) : Host.Outcome State Fault Refusal :=
  if s.status = .run then .refused .cursorWhileRunning
  else
    match decodeCommand w with
    | .ok i => exec i s
    | .error _ => .refused .readTooWide

/-- The host's command. -/
def hostStep (c : HostCmd) (s : State) : Host.Outcome State Fault Refusal :=
  match c with
  | .start => hostStart s
  | .load buf version => hostLoad buf version s
  | .configure sjis utf8 => hostConfigure sjis utf8 s
  | .cursor w => hostCursor w s

/-- Power-on (R302): STATUS = IDLE; "every other piece of state is unspecified", here as `State.reset` has it
(notes/assumptions/1.md). -/
def State.powerOn : State := { State.reset with status := .idle }

end Sys2Proof.Machine
end

