-- ==== Sys2Proof/Machine/Loop.lean ====
section
/-! DEFINITION. One step of the sequencer (R131): one iteration of the loop of R141, or the tail check. And where the next
segment's bits lie in the buffer, for placing one there. -/

namespace Sys2Proof.Machine

/-- The segment at OFFSET (R22, R134). -/
def State.fetch (s : State) : Except DecodeError Instr := decodeStream s.version s.bufBit s.offset

/-- The tail check (R138): with no bit left DONE; else the remaining bits are read, and DONE if they are all zero,
otherwise the fault UnterminatedStream (R139, R264). -/
def tailCheck (s : State) : State :=
  if s.available = 0 then s.finish
  else
    let r := s.readBits s.available
    if r.1 = 0 then r.2.finish else r.2.raise .unterminated

/-- A step of a running decode (R131, R132): with at least 4 bits left the segment at OFFSET, else the tail check. A
version without a size class has no step (R303); no START lets one in. -/
def sequencerStep (s : State) : Host.Outcome State Fault Refusal :=
  match s.fetch with
  | .error _ => .refused .versionOutOfRange
  | .ok i => if 4 ≤ s.available then exec i s else .next (tailCheck s)

/-- Bits cut into bytes from the left, the last byte filled with zero bits (R95); `n` bytes of them. -/
def packBytes : Nat → List Bool → List Byte
  | 0, _ => []
  | n + 1, l => BitVec.ofNat 8 (readNat (bitOfList l) 0 8) :: packBytes n (l.drop 8)

/-- The bytes of a list of bits (R95). -/
def bytesOfBits (l : List Bool) : List Byte := packBytes ((l.length + 7) / 8) l

/-- `s` with the given bits in BUF at OFFSET, where the next segment is fetched, and only zeros after them. Bits before
OFFSET stay; LEN grows if it must. -/
def State.placeBits (s : State) (bits : List Bool) : State :=
  let a := s.offset / 8
  let kept := (List.range (s.offset % 8)).map fun i => s.bufBit (8 * a + i)
  let new := bytesOfBits (kept ++ bits)
  { s with mem := Memory.writeList (Memory.below s.mem a) a new, len := max s.len (a + new.length) }

end Sys2Proof.Machine
end

