-- ==== Sys2Proof/Machine/Step.lean ====
section
/-! DEFINITION. The machine's step, and a word of the opcode table placed where the step takes its next instruction. -/

namespace Sys2Proof.Machine

/-- One step: the host's pending command if there is one; else, while STATUS = RUN, a step of the sequencer (R131); else no
step is enabled (R310). -/
def step (s : State) : Host.Outcome State Fault Refusal :=
  match s.pending with
  | some c => hostStep c { s with pending := none }
  | none => if s.status = .run then sequencerStep s else .fault .noStepEnabled

/-- `s` with a word of the opcode table as its next instruction: a segment's bits in BUF at OFFSET with a decode
running, a cursor command word as the host's pending command with no decode running. -/
def State.withFetchWord (s : State) (nbits w : Nat) : State :=
  match tableLayout nbits w with
  | .segment bits => { s.placeBits bits with status := .run, resultVersion := s.version, pending := none }
  | .command c => { s with status := if s.status = .run then .idle else s.status, pending := some (.cursor c) }

end Sys2Proof.Machine
end

