-- ==== Sys2Proof/Machine/Flags.lean ====
section
/-! DEFINITION. The block has no condition codes, carry, overflow or predicate flags (R12, R31). Its only status values are
STATUS and CAUSE; here are their encodings at the block's ports (R24, R265), the encodings of a chunk record (R27,
R245), and what the host may read and when (R143, R308). -/

namespace Sys2Proof.Machine

/-- STATUS at the port: IDLE = 0, RUN = 1, DONE = 2, FAULT = 3 (R24). -/
def Status.code : Status → BitVec 2
  | .idle  => 0
  | .run   => 1
  | .done  => 2
  | .fault => 3

/-- CAUSE at the port (R265); 7 never occurs (R32). -/
def Cause.code : Cause → BitVec 3
  | .none          => 0
  | .numGroup3     => 1
  | .numGroup2     => 2
  | .numGroup1     => 3
  | .kanjiUnmapped => 4
  | .alnumIndex    => 5
  | .unterminated  => 6

/-- Is it one of the causes whose class is FormatError (R260, R265)? -/
def Cause.isFormatError : Cause → Bool
  | .numGroup3 | .numGroup2 | .numGroup1 | .kanjiUnmapped | .alnumIndex => true
  | .none | .unterminated => false

/-- The variant tag of a chunk record: its segment's mode indicator (R27). -/
def Chunk.tag : Chunk → BitVec 4
  | .numeric _      => 1
  | .alphanumeric _ => 2
  | .byte _ _       => 4
  | .eci _          => 7
  | .kanji _ _      => 8

/-- The 22-bit two's-complement field of an assignment number (R245). -/
def assignmentField (a : Int) : BitVec 22 := BitVec.ofInt 22 a

/-- A chunk's text (R37). -/
def Chunk.textOf : Chunk → List CodeUnit
  | .numeric t      => t
  | .alphanumeric t => t
  | .byte _ t       => t
  | .kanji _ t      => t
  | .eci _          => []

/-- A chunk's byte contribution (R37): of a Numeric or Alphanumeric chunk, whose record has no bytes member, the
low 8 bits of each code unit of its text. -/
def Chunk.bytesOf : Chunk → List Byte
  | .numeric t      => t.map (BitVec.setWidth 8)
  | .alphanumeric t => t.map (BitVec.setWidth 8)
  | .byte b _       => b
  | .kanji b _      => b
  | .eci _          => []

/-- The Decoded Result (R37). -/
structure DecodedResult where
  text    : List CodeUnit
  bytes   : List Byte
  chunks  : List Chunk
  version : BitVec 6
deriving DecidableEq, Repr

/-- What the host may read of the block beside STATUS (R308). -/
inductive HostView
  | nothing
  | result (r : DecodedResult)
  | cause (c : Cause)
deriving DecidableEq, Repr

/-- At DONE the Decoded Result with the VERSION its decode was started with (R29, R143), at FAULT the cause only (R266), else nothing (R308). -/
def State.hostView (s : State) : HostView :=
  match s.status with
  | .done  => .result { text := s.text, bytes := s.bytes, chunks := s.chunks, version := s.resultVersion }
  | .fault => .cause s.cause
  | .idle  => .nothing
  | .run   => .nothing

end Sys2Proof.Machine
end

