-- ==== Sys2Proof/Machine/Rtl.lean ====
section
/-! DEFINITION. The block as registers: the pseudocode of R141, R160, R180, R200, R220 and R240 read word for word, over the
working registers of R30 at their widths (R112: ACC a 32-bit shift register). R30 makes these registers no part of the
architectural state: their values between steps are any values, so a machine of this file carries them beside the `State` and
starts a step from whatever they hold. `step` of Machine/Step.lean decodes a segment and then runs it; this file reads,
judges and emits field by field. That the two agree is a statement of Certificates/Slice0. -/

namespace Sys2Proof.Machine

/-- The working registers (R30). -/
structure WorkRegs where
  /-- ACC, the shift register of one ReadBits (R112). -/
  acc : BitVec 32
  /-- MODE, the mode indicator of the current segment. -/
  mode : BitVec 4
  /-- COUNT, what is still to unpack of the current segment. -/
  count : BitVec 16
  /-- SCR, the latched size class (R21). -/
  scr : BitVec 2
  /-- SEGTEXT, the text of the segment under way. -/
  segText : List CodeUnit
  /-- SEGBYTES, the bytes of the segment under way. -/
  segBytes : List Byte
deriving DecidableEq, Repr

/-- The architectural state and the working registers. -/
structure Rtl where
  arch : State
  work : WorkRegs
deriving DecidableEq, Repr

/-- The size class that SCR latches (R21). -/
def scrClass (c : BitVec 2) : SizeClass := if c = 0 then .sc0 else if c = 1 then .sc1 else .sc2

/-- `ACC <- (ACC << 1) | BufBit(OFFSET); OFFSET <- OFFSET + 1` (R112). -/
def Rtl.shift (m : Rtl) : Rtl :=
  { arch := m.arch.advance 1
    work := { m.work with acc := (m.work.acc <<< 1) ||| (if m.arch.bufBit m.arch.offset then 1 else 0) } }

/-- `n` single-bit shifts (R112). -/
def Rtl.shifts : Nat → Rtl → Rtl
  | 0, m => m
  | n + 1, m => Rtl.shifts n m.shift

/-- ReadBits(n) in its shift-register form: ACC is cleared, then `n` bits are shifted in (R112). -/
def Rtl.readBits (n : Nat) (m : Rtl) : Rtl := Rtl.shifts n { m with work := { m.work with acc := 0 } }

/-- ACC as the unsigned number ReadBits returns (R111). -/
def Rtl.acc (m : Rtl) : Nat := m.work.acc.toNat

/-- `raise` (R266). -/
def Rtl.raise (c : Cause) (m : Rtl) : Rtl := { m with arch := m.arch.raise c }

/-- A character to SEGTEXT and its low byte to SEGBYTES (R166, R186). -/
def Rtl.emit (u : CodeUnit) (m : Rtl) : Rtl :=
  { m with work := { m.work with segText := m.work.segText ++ [u], segBytes := m.work.segBytes ++ [u.setWidth 8] } }

/-- A decimal digit (R166). -/
def Rtl.emitDigit (d : Nat) (m : Rtl) : Rtl := m.emit (BitVec.ofNat 16 (0x0030 + d))

/-- `COUNT = COUNT − k`. -/
def Rtl.countDown (k : Nat) (m : Rtl) : Rtl :=
  { m with work := { m.work with count := m.work.count - BitVec.ofNat 16 k } }

/-- `COUNT = ReadBits(W(mode, sc))`, `t = []`, `b = []` (R161, R182, R201, R221). -/
def Rtl.openSegment (mode : ContentMode) (m : Rtl) : Rtl :=
  let r := m.readBits (countWidth mode (scrClass m.work.scr))
  { r with work := { r.work with count := r.work.acc.setWidth 16, segText := [], segBytes := [] } }

/-- `while COUNT >= 3` of R162; the first argument bounds the iterations. -/
def Rtl.numericLoop : Nat → Rtl → Except Rtl Rtl
  | 0, m => .ok m
  | fuel + 1, m =>
    if 3 ≤ m.work.count.toNat then
      let r := m.readBits 10
      if 1000 ≤ r.acc then .error (r.raise .numGroup3)
      else Rtl.numericLoop fuel
        ((((r.emitDigit (r.acc / 100)).emitDigit (r.acc / 10 % 10)).emitDigit (r.acc % 10)).countDown 3)
    else .ok m

/-- The remainder of R163 to R165. -/
def Rtl.numericRest (m : Rtl) : Except Rtl Rtl :=
  if m.work.count = 2 then
    let r := m.readBits 7
    if 100 ≤ r.acc then .error (r.raise .numGroup2)
    else .ok ((r.emitDigit (r.acc / 10)).emitDigit (r.acc % 10))
  else if m.work.count = 1 then
    let r := m.readBits 4
    if 10 ≤ r.acc then .error (r.raise .numGroup1)
    else .ok (r.emitDigit r.acc)
  else .ok m

/-- UnpackNumeric(sc) (R160). -/
def Rtl.unpackNumeric (m : Rtl) : Except Rtl Rtl :=
  let o := m.openSegment .num
  match Rtl.numericLoop o.work.count.toNat o with
  | .error e => .error e
  | .ok r => r.numericRest

/-- `emit(i)` of R180: the range check of R185, then the character. -/
def Rtl.emitIndex (i : Nat) (m : Rtl) : Except Rtl Rtl :=
  if 44 < i then .error (m.raise .alnumIndex) else .ok (m.emit (alphabet.getD i 0))

/-- `while COUNT >= 2` of R183; the first argument bounds the iterations. -/
def Rtl.alphanumericLoop : Nat → Rtl → Except Rtl Rtl
  | 0, m => .ok m
  | fuel + 1, m =>
    if 2 ≤ m.work.count.toNat then
      let r := m.readBits 11
      match r.emitIndex (r.acc / 45) with
      | .error e => .error e
      | .ok a =>
        match a.emitIndex (r.acc % 45) with
        | .error e => .error e
        | .ok b => Rtl.alphanumericLoop fuel (b.countDown 2)
    else .ok m

/-- UnpackAlphanumeric(sc) (R180). -/
def Rtl.unpackAlphanumeric (m : Rtl) : Except Rtl Rtl :=
  let o := m.openSegment .alnum
  match Rtl.alphanumericLoop o.work.count.toNat o with
  | .error e => .error e
  | .ok r =>
    if r.work.count = 1 then
      let q := r.readBits 6
      q.emitIndex q.acc
    else .ok r

/-- `repeat COUNT times` of R202; the first argument is COUNT. -/
def Rtl.byteLoop : Nat → Rtl → Rtl
  | 0, m => m
  | c + 1, m =>
    let r := m.readBits 8
    Rtl.byteLoop c
      ({ r with work := { r.work with segBytes := r.work.segBytes ++ [r.work.acc.setWidth 8] } }.countDown 1)

/-- UnpackByte(sc) (R200). -/
def Rtl.unpackByte (m : Rtl) : Rtl :=
  let o := m.openSegment .byte
  let r := Rtl.byteLoop o.work.count.toNat o
  { r with work := { r.work with segText := utf8Text r.arch.utf8 r.work.segBytes } }

/-- `c` of R222 for the value in ACC. -/
def Rtl.kanjiCode (m : Rtl) : Nat :=
  let c := (m.acc / 0xC0) <<< 8 ||| (m.acc % 0xC0)
  if c < 0x1F00 then c + 0x8140 else c + 0xC140

/-- `repeat COUNT times` of R220: the bytes are pushed first, then the table is asked (R226). The first argument is
COUNT. -/
def Rtl.kanjiLoop : Nat → Rtl → Except Rtl Rtl
  | 0, m => .ok m
  | n + 1, m =>
    let r := m.readBits 13
    let c := r.kanjiCode
    let p := { r with work := { r.work with
      segBytes := r.work.segBytes ++ [BitVec.ofNat 8 (c >>> 8), BitVec.ofNat 8 (c &&& 0xFF)] } }
    match p.arch.sjis.lookup (BitVec.ofNat 16 c) with
    | none => .error (p.raise .kanjiUnmapped)
    | some u => Rtl.kanjiLoop n
        ({ p with work := { p.work with segText := p.work.segText ++ [u] } }.countDown 1)

/-- UnpackKanji(sc) (R220). -/
def Rtl.unpackKanji (m : Rtl) : Except Rtl Rtl :=
  let o := m.openSegment .kanji
  Rtl.kanjiLoop o.work.count.toNat o

/-- UnpackECI() (R240), with the chunk appended (R136). -/
def Rtl.eciSegment (m : Rtl) : Rtl :=
  let r1 := m.readBits 1
  if r1.acc = 0 then
    let v := r1.readBits 7
    { v with arch := v.arch.accumulateEci v.acc }
  else
    let r2 := r1.readBits 1
    if r2.acc = 0 then
      let v := r2.readBits 14
      { v with arch := v.arch.accumulateEci v.acc }
    else
      let r3 := r2.readBits 1
      if r3.acc = 0 then
        let v := r3.readBits 21
        { v with arch := v.arch.accumulateEci v.acc }
      else { r3 with arch := r3.arch.accumulateEci (-1) }

/-- The end of a content segment: `CHUNKS`, `TEXT` and `BYTES` take what the segment made (R135), or the decode is over
(R266). -/
def Rtl.close (chunk : WorkRegs → Chunk) : Except Rtl Rtl → Rtl
  | .error m => m
  | .ok m => { m with arch := m.arch.accumulate (chunk m.work) m.work.segText m.work.segBytes }

/-- The body of the loop of R141 after `MODE = ReadBits(4)`. -/
def Rtl.dispatch (m : Rtl) : Rtl :=
  if m.work.mode = 0x0 then { m with arch := m.arch.finish }
  else if m.work.mode = 0x1 then Rtl.close (fun w => .numeric w.segText) m.unpackNumeric
  else if m.work.mode = 0x2 then Rtl.close (fun w => .alphanumeric w.segText) m.unpackAlphanumeric
  else if m.work.mode = 0x4 then Rtl.close (fun w => .byte w.segBytes w.segText) (.ok m.unpackByte)
  else if m.work.mode = 0x8 then Rtl.close (fun w => .kanji w.segBytes w.segText) m.unpackKanji
  else if m.work.mode = 0x7 then m.eciSegment
  else m

/-- The statements of R141 after the loop. -/
def Rtl.tail (m : Rtl) : Rtl :=
  if m.arch.available = 0 then { m with arch := m.arch.finish }
  else
    let r := m.readBits m.arch.available
    if r.acc = 0 then { r with arch := r.arch.finish } else r.raise .unterminated

/-- One step: the loop condition of R132, then one iteration or the tail check. -/
def Rtl.step (m : Rtl) : Rtl :=
  if 4 ≤ m.arch.available then
    let r := m.readBits 4
    Rtl.dispatch { r with work := { r.work with mode := r.work.acc.setWidth 4 } }
  else m.tail

/-- START: the reset values of R36, SCR latched, the other working registers left as they are. -/
def Rtl.launch (m : Rtl) (sc : SizeClass) : Rtl :=
  { arch := m.arch.launch, work := { m.work with scr := sc.code } }

end Sys2Proof.Machine
end

