-- ==== Sys2Proof/Machine/Stream.lean ====
section
/-! DEFINITION. The stream notation of R95 as terms: what each line assembles to, and the buffer a stream is cut into. The
notation is the spec's own (D19); it is the encoder of `Decode.lean` fed with digits, characters, bytes and values. -/

namespace Sys2Proof.Machine

/-- The data of `NUM "d1...dc"`: groups of three as decimal values, a final two as 7 bits, a final one as 4
bits (R95). -/
def numOfDigits : List (Fin 10) → NumData
  | a :: b :: c :: ds =>
    let d := numOfDigits ds
    { d with groups := BitVec.ofNat 10 (100 * a.val + 10 * b.val + c.val) :: d.groups }
  | [a, b] => { groups := [], rest := .two (BitVec.ofNat 7 (10 * a.val + b.val)) }
  | [a] => { groups := [], rest := .one (BitVec.ofNat 4 a.val) }
  | [] => { groups := [], rest := .none }

/-- The data of `ALNUM "x1...xc"`, given the indices of the characters: pairs as `45×i1 + i2` in 11 bits, a
final single as its index in 6 bits (R95). -/
def alnumOfIndices : List (Fin 45) → AlnumData
  | a :: b :: is =>
    let d := alnumOfIndices is
    { d with pairs := BitVec.ofNat 11 (45 * a.val + b.val) :: d.pairs }
  | [a] => { pairs := [], single := some (BitVec.ofNat 6 a.val) }
  | [] => { pairs := [], single := none }

/-- The shortest form of R90 that holds an assignment number (`ECI a` of R95). -/
def eciOfNumber (a : Nat) : Option Instr :=
  if a < 2 ^ 7 then some (.eci7 (BitVec.ofNat 7 a))
  else if a < 2 ^ 14 then some (.eci14 (BitVec.ofNat 14 a))
  else if a < 2 ^ 21 then some (.eci21 (BitVec.ofNat 21 a))
  else none

/-- The bits of a stream of instructions, in order (R95). -/
def streamBits (is : List Instr) : List Bool := is.flatMap encode

/-- The buffer of a stream: cut into bytes from the left, padded with zero bits (R95). -/
def streamBytes (is : List Instr) : List Byte := bytesOfBits (streamBits is)

end Sys2Proof.Machine
end

