-- ==== Sys2Proof/Safety.lean ====
section
/-! DEFINITION. The terms in which claims are made: when a run is over, what every state of a decode satisfies, and what
the recommended UTF-8 decoder accepts. -/

namespace Sys2Proof.Machine

/-- `k` steps, stopping at the first fault or refusal: `Host.Core.run` of the machine (`Laws/Exec.lean` proves them equal),
over `State` by name. -/
def run : Nat → State → Host.Outcome State Fault Refusal
  | 0, s => .next s
  | k + 1, s =>
    match step s with
    | .next t => run k t
    | .fault r => .fault r
    | .refused r => .refused r

/-- A run of the block is over (R310). -/
def State.over (s : State) : Bool := s.status == .done || s.status == .fault

/-- What a chunk record may hold (R27, R37, R227, R245): digits; characters of the alphabet; two bytes for each code unit of a
kanji text; an assignment number of −1 or 0 .. 2^21 − 1. -/
def Chunk.legal : Chunk → Prop
  | .numeric t => ∀ u ∈ t, 0x30 ≤ u.toNat ∧ u.toNat ≤ 0x39
  | .alphanumeric t => ∀ u ∈ t, u ∈ alphabet
  | .byte _ _ => True
  | .kanji b t => b.length = 2 * t.length
  | .eci a => a = -1 ∨ (0 ≤ a ∧ a < 2 ^ 21)

/-- The invariant of a decode: memory in canonical form and inside BUF (R21, R50), TEXT and BYTES the concatenations R37
gives, every chunk legal, CAUSE other than 0 exactly at FAULT (R25, R266), and
in RUN the latched VERSION that of the input (R21, R29). At FAULT nothing is said of the lists
(R266). -/
structure State.Inv (s : State) : Prop where
  memory_wf : Memory.wf s.mem = true
  memory_in_len : ∀ c ∈ s.mem, c.1 < s.len
  text_eq : s.status ≠ .fault → s.text = s.chunks.flatMap Chunk.textOf
  bytes_eq : s.status ≠ .fault → s.bytes = s.chunks.flatMap Chunk.bytesOf
  chunks_legal : s.status ≠ .fault → ∀ c ∈ s.chunks, c.legal
  cause_iff : s.cause = .none ↔ s.status ≠ .fault
  version_latched : s.status = .run → s.resultVersion = s.version

/-- The bound of R23 on OFFSET within a decode: of the host's commands at most START is pending, since outside a decode a cursor
command moves OFFSET and a load changes LEN. -/
structure State.OffsetInv (s : State) : Prop where
  only_start : s.pending = none ∨ s.pending = some .start
  bounded : s.offset ≤ 8 * s.len + 524296

/-- A well-formed UTF-8 sequence and its scalar value: the nine rows of R205. -/
inductive Utf8Sequence : List Byte → Nat → Prop
  | one (b0 : Byte) : b0.toNat ≤ 0x7F → Utf8Sequence [b0] b0.toNat
  | two (b0 b1 : Byte) : 0xC2 ≤ b0.toNat → b0.toNat ≤ 0xDF → 0x80 ≤ b1.toNat → b1.toNat ≤ 0xBF →
      Utf8Sequence [b0, b1] (scalar2 b0 b1)
  | threeE0 (b0 b1 b2 : Byte) : b0.toNat = 0xE0 → 0xA0 ≤ b1.toNat → b1.toNat ≤ 0xBF →
      0x80 ≤ b2.toNat → b2.toNat ≤ 0xBF → Utf8Sequence [b0, b1, b2] (scalar3 b0 b1 b2)
  | threeE1 (b0 b1 b2 : Byte) : 0xE1 ≤ b0.toNat → b0.toNat ≤ 0xEC → 0x80 ≤ b1.toNat → b1.toNat ≤ 0xBF →
      0x80 ≤ b2.toNat → b2.toNat ≤ 0xBF → Utf8Sequence [b0, b1, b2] (scalar3 b0 b1 b2)
  | threeED (b0 b1 b2 : Byte) : b0.toNat = 0xED → 0x80 ≤ b1.toNat → b1.toNat ≤ 0x9F →
      0x80 ≤ b2.toNat → b2.toNat ≤ 0xBF → Utf8Sequence [b0, b1, b2] (scalar3 b0 b1 b2)
  | threeEE (b0 b1 b2 : Byte) : 0xEE ≤ b0.toNat → b0.toNat ≤ 0xEF → 0x80 ≤ b1.toNat → b1.toNat ≤ 0xBF →
      0x80 ≤ b2.toNat → b2.toNat ≤ 0xBF → Utf8Sequence [b0, b1, b2] (scalar3 b0 b1 b2)
  | fourF0 (b0 b1 b2 b3 : Byte) : b0.toNat = 0xF0 → 0x90 ≤ b1.toNat → b1.toNat ≤ 0xBF →
      0x80 ≤ b2.toNat → b2.toNat ≤ 0xBF → 0x80 ≤ b3.toNat → b3.toNat ≤ 0xBF →
      Utf8Sequence [b0, b1, b2, b3] (scalar4 b0 b1 b2 b3)
  | fourF1 (b0 b1 b2 b3 : Byte) : 0xF1 ≤ b0.toNat → b0.toNat ≤ 0xF3 → 0x80 ≤ b1.toNat → b1.toNat ≤ 0xBF →
      0x80 ≤ b2.toNat → b2.toNat ≤ 0xBF → 0x80 ≤ b3.toNat → b3.toNat ≤ 0xBF →
      Utf8Sequence [b0, b1, b2, b3] (scalar4 b0 b1 b2 b3)
  | fourF4 (b0 b1 b2 b3 : Byte) : b0.toNat = 0xF4 → 0x80 ≤ b1.toNat → b1.toNat ≤ 0x8F →
      0x80 ≤ b2.toNat → b2.toNat ≤ 0xBF → 0x80 ≤ b3.toNat → b3.toNat ≤ 0xBF →
      Utf8Sequence [b0, b1, b2, b3] (scalar4 b0 b1 b2 b3)

/-- A list of bytes is a concatenation of well-formed sequences, with these code units (R205). -/
inductive Utf8Text : List Byte → List CodeUnit → Prop
  | nil : Utf8Text [] []
  | cons {seq rest : List Byte} {v : Nat} {us : List CodeUnit} :
      Utf8Sequence seq v → Utf8Text rest us → Utf8Text (seq ++ rest) (utf16Units v ++ us)

end Sys2Proof.Machine
end

