-- ==== Sys2Proof/WellFormed.lean ====
section
/-! DEFINITION. Which terms of `Instr` the encoding of the spec can express: the count fits the length prefix of the
mode and size class (R84), and a cursor read asks for at most 32 bits (R97, R115). Every other field is a
bit vector of its own width, so every value of it is encodable (R86, R87, R93). -/

namespace Sys2Proof

/-- The count fits its length prefix (R84: "Any count the field can hold is legal"). -/
def countFits (m : ContentMode) (sc : SizeClass) (count : Nat) : Bool :=
  decide (count < 2 ^ countWidth m sc)

/-- The instruction is one the encoding can express. -/
def Instr.wf : Instr → Bool
  | .numSc0 d => countFits .num .sc0 d.count
  | .numSc1 d => countFits .num .sc1 d.count
  | .numSc2 d => countFits .num .sc2 d.count
  | .alnumSc0 d => countFits .alnum .sc0 d.count
  | .alnumSc1 d => countFits .alnum .sc1 d.count
  | .alnumSc2 d => countFits .alnum .sc2 d.count
  | .byteSc0 bs => countFits .byte .sc0 bs.length
  | .byteSc1 bs => countFits .byte .sc1 bs.length
  | .byteSc2 bs => countFits .byte .sc2 bs.length
  | .kanjiSc0 ks => countFits .kanji .sc0 ks.length
  | .kanjiSc1 ks => countFits .kanji .sc1 ks.length
  | .kanjiSc2 ks => countFits .kanji .sc2 ks.length
  | .eci7 _ => true
  | .eci14 _ => true
  | .eci21 _ => true
  | .eciBad => true
  | .term => true
  | .rsvd3 => true
  | .rsvd5 => true
  | .rsvd6 => true
  | .rsvd9 => true
  | .rsvd10 => true
  | .rsvd11 => true
  | .rsvd12 => true
  | .rsvd13 => true
  | .rsvd14 => true
  | .rsvd15 => true
  | .bcRead n => decide (n.toNat ≤ 32)
  | .bcAvail => true

end Sys2Proof
end

