-- ==== Sys2Proof/Certificates/Slice0/Obligations.lean ====
section
/-! DEFINITION. The statements. Each docstring names the rule of spec/ it formalises, or says that it is derived. A statement
about a segment of a content mode is made for the three size classes at once through `numInstr sc` (`.numSc0`, `.numSc1`,
`.numSc2`), `alnumInstr sc`, `byteInstr sc` and `kanjiInstr sc`. A next state is written as the state before with the fields
that change, which is the frame too: every field not named is unchanged. Where a fault is taken, TEXT, BYTES and CHUNKS are
left out: at FAULT the host must not read them and nothing is stated of them (R266). -/

open Sys2Proof Sys2Proof.Machine

namespace Sys2Proof.Claims

/-- A bit as a number. -/
def bitNat (b : Bool) : Nat := if b then 1 else 0

/-- The digits that the rest of a numeric segment holds (R163, R164). -/
def restDigits : NumRest → List Nat
  | .none => []
  | .one g => [g.toNat]
  | .two g => [g.toNat / 10, g.toNat % 10]

/-- The digits of a numeric segment, in stream order (R162 to R164). -/
def digits (d : NumData) : List Nat :=
  (d.groups.flatMap fun g => [g.toNat / 100, g.toNat / 10 % 10, g.toNat % 10]) ++ restDigits d.rest

/-- The rest of a numeric segment is in range (R163, R164). -/
def restInRange : NumRest → Prop
  | .none => True
  | .one g => g.toNat < 10
  | .two g => g.toNat < 100

/-- The indices of the characters of an alphanumeric segment, in stream order (R183, R184). -/
def indices (d : AlnumData) : List Nat :=
  (d.pairs.flatMap fun p => [p.toNat / 45, p.toNat % 45]) ++ d.single.toList.map BitVec.toNat

/-- The code of a 13-bit value, as R222 computes it over the naturals. -/
def shiftJis (k : BitVec 13) : Nat :=
  let c := 256 * (k.toNat / 192) + k.toNat % 192
  if c < 0x1F00 then c + 0x8140 else c + 0xC140

/-- What is the same in two states whatever the result lists hold. -/
def sameButLists (s t : State) : Prop := t = { s with text := t.text, bytes := t.bytes, chunks := t.chunks }

end Sys2Proof.Claims

open Sys2Proof.Claims

/-! ### The buffer and the Bit Cursor -/

/-- R52, R53. `BufBit(j)` is bit `7 − (j mod 8)` of byte `j div 8` of BUF and 0 from `8×LEN` on; `MemRead(j, n)` is the sum of
its bits with the first bit most significant. -/
def Obligations.MemReadPutsFirstBitMostSignificant : Prop :=
  ∀ (s : State) (j n : Nat),
    (j < 8 * s.len → bitNat (s.bufBit j) = (Memory.read s.mem (j / 8)).toNat >>> (7 - j % 8) &&& 1) ∧
    (8 * s.len ≤ j → s.bufBit j = false) ∧
    s.memRead j n = ((List.range n).map fun i => bitNat (s.bufBit (j + i)) * 2 ^ (n - 1 - i)).sum

/-- R111. BC.READ with n in 0..32 completes: it returns `MemRead(OFFSET, n)`, which is below 2^n, adds n to OFFSET, and
writes nothing else. -/
def Obligations.BcReadReturnsNextBits : Prop :=
  ∀ (s : State) (n : BitVec 6), n.toNat ≤ 32 →
    exec (.bcRead n) s = .next { s with reply := s.memRead s.offset n.toNat, offset := s.offset + n.toNat } ∧
    s.memRead s.offset n.toNat < 2 ^ n.toNat

/-- Derived (R115). A BC.READ command word with n = 33..63 is refused, by the instruction and by a step that takes the
word up outside RUN (in RUN every word is refused: TheHostHasNoStepInRun). The port that holds the word is the model's
choice, notes/assumptions/10.md and 11.md. -/
def Obligations.BcReadAbove32IsRefused : Prop :=
  ∀ (s : State) (n : BitVec 6), 32 < n.toNat →
    exec (.bcRead n) s = .refused .readTooWide ∧
    (s.status ≠ .run → s.pending = some (.cursor (BitVec.ofNat 7 n.toNat)) → step s = .refused .readTooWide)

/-- R114. BC.AVAIL completes: it returns `max(0, 8×LEN − OFFSET)` and writes nothing else. -/
def Obligations.BcAvailReturnsRemainingBits : Prop :=
  ∀ s : State, exec .bcAvail s = .next { s with reply := (max 0 (8 * (s.len : Int) - (s.offset : Int))).toNat }

/-- Derived (R117, which the spec infers from R111 and R54). For a + b <= 32, reading a bits and then b bits completes and
yields x and y with `x × 2^b + y` equal to what one read of a + b bits returns, and leaves the same OFFSET. -/
def Obligations.SplitReadsEqualOneRead : Prop :=
  ∀ (s : State) (a b ab : BitVec 6), a.toNat + b.toNat = ab.toNat → ab.toNat ≤ 32 →
    ∃ t u v, exec (.bcRead a) s = .next t ∧ exec (.bcRead b) t = .next u ∧ exec (.bcRead ab) s = .next v ∧
      t.reply * 2 ^ b.toNat + u.reply = v.reply ∧ u.offset = v.offset

/-- Derived (R57, which the spec infers from R52 and R53). A read that runs past the end of BUF has the missing bits as
zeros at its low-order end, and one wholly beyond the end is 0. -/
def Obligations.MissingBitsReadAsLowOrderZeros : Prop :=
  ∀ (s : State) (j n : Nat),
    (j ≤ 8 * s.len → 8 * s.len ≤ j + n → s.memRead j n = s.memRead j (8 * s.len - j) * 2 ^ (j + n - 8 * s.len)) ∧
    (8 * s.len ≤ j → s.memRead j n = 0)

/-- Derived (R112, which the spec infers from R111, R52 and R53). ReadBits(n), n <= 32, equals n single-bit shifts through
the 32-bit ACC: the same value, the same OFFSET, and of the working registers only ACC written. -/
def Obligations.ShiftRegisterFormEqualsReadBits : Prop :=
  ∀ (m : Rtl) (n : Nat), n ≤ 32 →
    (m.readBits n).acc = (m.arch.readBits n).1 ∧ (m.readBits n).arch = (m.arch.readBits n).2 ∧
    (m.readBits n).work = { m.work with acc := (m.readBits n).work.acc }

/-- Derived (C4 of the memory file, R50 to R52). A byte written reads back, every other address reads as before, the canonical
form is kept, and two canonical memories that read alike everywhere are equal. -/
def Obligations.MemoryReadAfterWrite : Prop :=
  (∀ (m : Memory) (x y : Nat) (b : Byte), Memory.wf m = true →
    Memory.wf (Memory.write m x b) = true ∧
    Memory.read (Memory.write m x b) y = if y = x then b else Memory.read m y) ∧
  (∀ m m' : Memory, Memory.wf m = true → Memory.wf m' = true →
    (∀ a, Memory.read m a = Memory.read m' a) → m = m')

/-! ### Formats and encodings -/

/-- R7. The size class of a version; and the width table of R84. -/
def Obligations.SizeClassesAndCountWidths : Prop :=
  (∀ v : BitVec 6, (sizeClass v = some .sc0 ↔ 1 ≤ v.toNat ∧ v.toNat ≤ 9) ∧
    (sizeClass v = some .sc1 ↔ 10 ≤ v.toNat ∧ v.toNat ≤ 26) ∧
    (sizeClass v = some .sc2 ↔ 27 ≤ v.toNat ∧ v.toNat ≤ 40)) ∧
  ([SizeClass.sc0, .sc1, .sc2].map (countWidth .num) = [10, 12, 14]) ∧
  ([SizeClass.sc0, .sc1, .sc2].map (countWidth .alnum) = [9, 11, 13]) ∧
  ([SizeClass.sc0, .sc1, .sc2].map (countWidth .byte) = [8, 16, 16]) ∧
  ([SizeClass.sc0, .sc1, .sc2].map (countWidth .kanji) = [8, 10, 12])

/-- Derived. Words written out from the formats of R80 and from the vectors of spec/95_test_vectors.md decode to the
instructions they stand for: S8, A1, Y1, S4, S7, E2, E3, E4, S6. -/
def Obligations.SampleWordsDecode : Prop :=
  decodeSegment .sc0 (bitOfBytes [0x10, 0x0C, 0x7B, 0x00]) 0 = .numSc0 ⟨[123], .none⟩ ∧
  decodeSegment .sc0 (bitOfBytes [0x20, 0x29, 0xCE, 0xE7, 0x21, 0x00]) 0 = .alnumSc0 ⟨[462, 1849], some 2⟩ ∧
  decodeSegment .sc0 (bitOfBytes [0x40, 0x24, 0x86, 0x90]) 0 = .byteSc0 [0x48, 0x69] ∧
  decodeSegment .sc0 (bitOfBytes [0x80, 0x10, 0x00, 0x00]) 0 = .kanjiSc0 [0] ∧
  decodeSegment .sc0 (bitOfBytes [0x70, 0x50]) 0 = .eci7 5 ∧
  decodeSegment .sc0 (bitOfBytes [0x78, 0x3E, 0x80]) 0 = .eci14 1000 ∧
  decodeSegment .sc0 (bitOfBytes [0x7C, 0x18, 0x6A, 0x00]) 0 = .eci21 100000 ∧
  decodeSegment .sc0 (bitOfBytes [0x7E, 0x00]) 0 = .eciBad ∧
  decodeSegment .sc0 (bitOfBytes [0x00]) 0 = .term ∧
  decodeSegment .sc2 (bitOfBytes [0x33]) 0 = .rsvd3

/-- R81. The mode indicator, read with ReadBits(4) and compared as a number 0..15, selects the row. -/
def Obligations.IndicatorSelectsTheRow : Prop :=
  ∀ (sc : SizeClass) (bit : Nat → Bool) (j : Nat),
    (readNat bit j 4 = 0x0 → decodeSegment sc bit j = .term) ∧
    (readNat bit j 4 = 0x1 → ∃ d, decodeSegment sc bit j = numInstr sc d) ∧
    (readNat bit j 4 = 0x2 → ∃ d, decodeSegment sc bit j = alnumInstr sc d) ∧
    (readNat bit j 4 = 0x4 → ∃ bs, decodeSegment sc bit j = byteInstr sc bs) ∧
    (readNat bit j 4 = 0x8 → ∃ ks, decodeSegment sc bit j = kanjiInstr sc ks) ∧
    (readNat bit j 4 = 0x7 → decodeSegment sc bit j = .eciBad ∨ (∃ v, decodeSegment sc bit j = .eci7 v) ∨
      (∃ v, decodeSegment sc bit j = .eci14 v) ∨ (∃ v, decodeSegment sc bit j = .eci21 v)) ∧
    (readNat bit j 4 = 0x3 → decodeSegment sc bit j = .rsvd3) ∧
    (readNat bit j 4 = 0x5 → decodeSegment sc bit j = .rsvd5) ∧
    (readNat bit j 4 = 0x6 → decodeSegment sc bit j = .rsvd6) ∧
    (readNat bit j 4 = 0x9 → decodeSegment sc bit j = .rsvd9) ∧
    (readNat bit j 4 = 0xA → decodeSegment sc bit j = .rsvd10) ∧
    (readNat bit j 4 = 0xB → decodeSegment sc bit j = .rsvd11) ∧
    (readNat bit j 4 = 0xC → decodeSegment sc bit j = .rsvd12) ∧
    (readNat bit j 4 = 0xD → decodeSegment sc bit j = .rsvd13) ∧
    (readNat bit j 4 = 0xE → decodeSegment sc bit j = .rsvd14) ∧
    (readNat bit j 4 = 0xF → decodeSegment sc bit j = .rsvd15)

/-- Derived (R80, R81, R83 to R90, R94). Whatever stands before and after it, a stream of size class `sc` that holds the
bits of a well-formed segment from bit address j decodes there to that segment, with every operand at every value. -/
def Obligations.DecodingAnEncodedSegmentGivesItBack : Prop :=
  ∀ (sc : SizeClass) (i : Instr) (bit : Nat → Bool) (j : Nat), i.wf = true → i.inStream sc = true →
    (∀ k, k < (encode i).length → bit (j + k) = (encode i).getD k false) → decodeSegment sc bit j = i

/-- Derived (R80, R81, R83 to R90). The decoder is total on any bits, gives a well-formed segment of the stream's size
class, and every bit of the stream that the segment occupies is the bit its encoding has there. -/
def Obligations.EncodingADecodedSegmentGivesItsBits : Prop :=
  ∀ (sc : SizeClass) (bit : Nat → Bool) (j : Nat),
    (decodeSegment sc bit j).wf = true ∧ (decodeSegment sc bit j).inStream sc = true ∧
    ∀ k, k < (encode (decodeSegment sc bit j)).length →
      (encode (decodeSegment sc bit j)).getD k false = bit (j + k)

/-- Derived (R94, R82). The code is self-delimiting: of two well-formed segments of one size class, neither's bits begin
the other's, unless they are the same segment. -/
def Obligations.NoSegmentBeginsAnother : Prop :=
  ∀ (sc : SizeClass) (i i' : Instr), i.wf = true → i'.wf = true → i.inStream sc = true → i'.inStream sc = true →
    encode i <+: encode i' → i = i'

/-- R97. A cursor command word decodes to its command: `0 nnnnnn` with n = 0..32 to BC.READ n, n = 33..63 reserved,
`1 xxxxxx` to BC.AVAIL, the low six bits ignored; and what the encoder writes decodes back. -/
def Obligations.CursorCommandWords : Prop :=
  (∀ n : BitVec 6, n.toNat ≤ 32 → decodeCommand (BitVec.ofNat 7 n.toNat) = .ok (.bcRead n)) ∧
  (∀ n : BitVec 6, 32 < n.toNat → decodeCommand (BitVec.ofNat 7 n.toNat) = .error .readWidthReserved) ∧
  (∀ n : BitVec 6, decodeCommand (BitVec.ofNat 7 (64 + n.toNat)) = .ok .bcAvail) ∧
  (∀ i : Instr, i.isCommand = true → i.wf = true → decodeCommand (commandWord (encode i)) = .ok i)

/-- Derived (R91, which the spec infers from R80, R84, R86 to R90). The length of every segment in bits, with c the value
of its count field; and that is what OFFSET advances by when the segment completes without a fault. -/
def Obligations.SegmentLengthsAndOffsetAdvance : Prop :=
  (∀ sc d, (encode (numInstr sc d)).length = 4 + countWidth .num sc + 10 * (d.count / 3) +
    (if d.count % 3 = 0 then 0 else if d.count % 3 = 1 then 4 else 7)) ∧
  (∀ sc d, (encode (alnumInstr sc d)).length =
    4 + countWidth .alnum sc + 11 * (d.count / 2) + 6 * (d.count % 2)) ∧
  (∀ sc bs, (encode (byteInstr sc bs)).length = 4 + countWidth .byte sc + 8 * bs.length) ∧
  (∀ sc ks, (encode (kanjiInstr sc ks)).length = 4 + countWidth .kanji sc + 13 * ks.length) ∧
  (∀ v, (encode (.eci7 v)).length = 12) ∧ (∀ v, (encode (.eci14 v)).length = 20) ∧
  (∀ v, (encode (.eci21 v)).length = 28) ∧ (encode .eciBad).length = 7 ∧ (encode .term).length = 4 ∧
  (∀ i ∈ [Instr.rsvd3, .rsvd5, .rsvd6, .rsvd9, .rsvd10, .rsvd11, .rsvd12, .rsvd13, .rsvd14, .rsvd15],
    (encode i).length = 4) ∧
  (∀ (i : Instr) (s t : State), i.isCommand = false → s.status = .run → exec i s = .next t → t.status ≠ .fault →
    t.offset = s.offset + (encode i).length)

/-- Derived (R24, R265, R27, R245). The encodings at the block's ports of STATUS, CAUSE, a chunk's variant tag and every
assignment number there is, −1 and 0 .. 2^21 − 1, in 22-bit two's complement. The codes are the spec's own decisions D1,
D16, D22 and D15. -/
def Obligations.PortEncodings : Prop :=
  [Status.idle, .run, .done, .fault].map Status.code = [0, 1, 2, 3] ∧
  [Cause.none, .numGroup3, .numGroup2, .numGroup1, .kanjiUnmapped, .alnumIndex, .unterminated].map Cause.code =
    [0, 1, 2, 3, 4, 5, 6] ∧
  (∀ (t : List CodeUnit) (b : List Byte) (a : Int), (Chunk.numeric t).tag = 1 ∧ (Chunk.alphanumeric t).tag = 2 ∧
    (Chunk.byte b t).tag = 4 ∧ (Chunk.eci a).tag = 7 ∧ (Chunk.kanji b t).tag = 8) ∧
  assignmentField (-1) = 0x3FFFFF ∧ (∀ a : Int, a = -1 ∨ (0 ≤ a ∧ a < 2 ^ 21) → (assignmentField a).toInt = a)

/-! ### A step -/

/-- Derived (R22, R97, R131, R132, R134). A step runs the decoded instruction. While STATUS = RUN, with no host command
pending and at least 4 bits left, a step is `exec` of the segment at OFFSET; when the bits of BUF at OFFSET are those of a
well-formed segment i of the version's size class, it is `exec` of i. Outside RUN a step that takes up a cursor command
word is `exec` of its command, the word taken away: this third clause is the model's choice, notes/assumptions/10.md (the
pending port) and 11.md (the block's own OFFSET, in every STATUS but RUN). -/
def Obligations.AStepRunsTheDecodedInstruction : Prop :=
  (∀ (s : State) (sc : SizeClass), s.pending = none → s.status = .run → sizeClass s.version = some sc →
    4 ≤ s.available → step s = exec (decodeSegment sc s.bufBit s.offset) s) ∧
  (∀ (s : State) (sc : SizeClass) (i : Instr), s.pending = none → s.status = .run → sizeClass s.version = some sc →
    4 ≤ s.available → i.wf = true → i.inStream sc = true →
    (∀ k, k < (encode i).length → s.bufBit (s.offset + k) = (encode i).getD k false) → step s = exec i s) ∧
  (∀ (s : State) (w : BitVec 7) (i : Instr), s.status ≠ .run → s.pending = some (.cursor w) →
    decodeCommand w = .ok i → step s = exec i { s with pending := none })

/-- Derived (R138, R139; the low bits of the last byte are the spec's inference from R53). The tail check: with fewer than
4 bits left, r of them, a step ends the run. With r = 0: DONE. Otherwise the r bits, which are the r low bits of the last
byte of BUF, are read, so OFFSET becomes 8×LEN: DONE if they are all zero, the fault UnterminatedStream if not, and then
the host reads the cause and no result. -/
def Obligations.TailCheckEndsTheRun : Prop :=
  ∀ s : State, s.pending = none → s.status = .run → (sizeClass s.version).isSome → s.available < 4 →
    (s.available = 0 → step s = .next { s with status := .done }) ∧
    (0 < s.available →
      s.memRead s.offset s.available = (Memory.read s.mem (s.len - 1)).toNat % 2 ^ s.available) ∧
    (0 < s.available → (Memory.read s.mem (s.len - 1)).toNat % 2 ^ s.available = 0 →
      step s = .next { s with offset := 8 * s.len, status := .done }) ∧
    (0 < s.available → (Memory.read s.mem (s.len - 1)).toNat % 2 ^ s.available ≠ 0 →
      ∃ t, step s = .next t ∧ t.hostView = .cause .unterminated ∧
        sameButLists { s with offset := 8 * s.len, status := .fault, cause := .unterminated } t)

/-- Derived (R131, R303, R310). A step of the sequencer is enabled exactly when STATUS = RUN: with no host command
pending, a step answers a next state in RUN (with a legal VERSION), and in IDLE, DONE and FAULT none is enabled, whatever
VERSION is. It ends in RUN, DONE or FAULT. That no enabled step is the fault `noStepEnabled` is notes/assumptions/12.md.
-/
def Obligations.AStepIsEnabledExactlyInRun : Prop :=
  ∀ s : State, s.pending = none →
    ((sizeClass s.version).isSome → ((∃ t, step s = .next t) ↔ s.status = .run)) ∧
    (s.status ≠ .run → step s = .fault .noStepEnabled) ∧
    (∀ t, step s = .next t → t.status = .run ∨ t.status = .done ∨ t.status = .fault)

/-- R300. START with VERSION in 1..40 and STATUS in {IDLE, DONE, FAULT} takes the reset values; the launch inputs and the
configuration stay; VERSION is latched for the result (D1, R29). -/
def Obligations.StartTakesTheResetValues : Prop :=
  ∀ s : State, s.pending = some .start → s.status ≠ .run → 1 ≤ s.version.toNat → s.version.toNat ≤ 40 →
    step s = .next { s with offset := 0, text := [], bytes := [], chunks := [], cause := .none, status := .run,
                            resultVersion := s.version, pending := none }

/-- R303, R305. START is refused while STATUS = RUN, and for a VERSION outside 1..40. -/
def Obligations.StartIsRefused : Prop :=
  ∀ s : State, s.pending = some .start →
    (s.status = .run → step s = .refused .startWhileRunning) ∧
    (s.status ≠ .run → (s.version.toNat = 0 ∨ 40 < s.version.toNat) → step s = .refused .versionOutOfRange)

/-- R307. A change of BUF, LEN, VERSION or the configuration while STATUS = RUN is refused. -/
def Obligations.InputChangesAreRefusedInRun : Prop :=
  ∀ (s : State) (buf : List Byte) (v : BitVec 6) (tab : List (CodeUnit × CodeUnit)) (dec : Utf8Decoder),
    s.status = .run →
    (s.pending = some (.load buf v) → step s = .refused .inputsWhileRunning) ∧
    (s.pending = some (.configure tab dec) → step s = .refused .inputsWhileRunning)

/-- Derived (R21, R60, R304). Outside RUN the host's load places its bytes at addresses 0, 1, ... of BUF, with LEN their
number and nothing beyond them, in canonical form. -/
def Obligations.ALoadPlacesTheBuffer : Prop :=
  ∀ (s : State) (buf : List Byte) (v : BitVec 6), s.status ≠ .run → s.pending = some (.load buf v) →
    ∃ t, step s = .next t ∧ t = { s with mem := t.mem, len := buf.length, version := v, pending := none } ∧
      (∀ a, Memory.read t.mem a = buf.getD a 0) ∧ (∀ j, t.bufBit j = bitOfBytes buf j) ∧
      Memory.wf t.mem = true

/-- R36. What reset leaves: OFFSET 0, the lists empty, CAUSE 0, STATUS RUN, and SCR the size class; at power-on STATUS is
IDLE. (LEN, VERSION and BUF are launch inputs: their values at reset are the model's choice, notes/assumptions/2.md, and
are not stated.) -/
def Obligations.ResetValues : Prop :=
  State.reset.offset = 0 ∧ State.reset.text = [] ∧ State.reset.bytes = [] ∧ State.reset.chunks = [] ∧
  State.reset.status = .run ∧ State.reset.cause = .none ∧ State.powerOn.status = .idle ∧
  (∀ (m : Rtl) (sc : SizeClass), (m.launch sc).arch = m.arch.launch ∧ (m.launch sc).work.scr = sc.code)

/-- Derived (R308, R29, R143, R266). What the host may read: at DONE the Decoded Result with the VERSION its decode was
started with, at FAULT the cause only, at RUN and IDLE nothing. -/
def Obligations.HostReadsTheResultOnlyAtDone : Prop :=
  ∀ s : State,
    (s.status = .done → s.hostView = .result ⟨s.text, s.bytes, s.chunks, s.resultVersion⟩) ∧
    (s.status = .fault → s.hostView = .cause s.cause) ∧
    (s.status = .run ∨ s.status = .idle → s.hostView = .nothing)

/-! ### Segments -/

/-- R166, R165. NUM in each size class completes when its groups are in range (R162 to R164): the digits, hundreds before
tens before units, as many as the count says, go to the chunk and to TEXT as characters and to BYTES as ASCII digits, and
OFFSET moves past the segment, with nothing read after the last group of three where the count is a multiple of 3. -/
def Obligations.NumericSegmentResult : Prop :=
  ∀ (sc : SizeClass) (d : NumData) (s : State), (∀ g ∈ d.groups, g.toNat < 1000) → restInRange d.rest →
    exec (numInstr sc d) s = .next { s with
      offset := s.offset + (4 + countWidth .num sc + 10 * d.groups.length + d.rest.bits)
      chunks := s.chunks ++ [.numeric ((digits d).map fun x => BitVec.ofNat 16 (0x0030 + x))]
      text := s.text ++ (digits d).map fun x => BitVec.ofNat 16 (0x0030 + x)
      bytes := s.bytes ++ (digits d).map fun x => BitVec.ofNat 8 (0x30 + x) } ∧
    (digits d).length = d.count

/-- R261. NUM takes a fault at the first group out of range: NUM_GROUP3 at the first 10-bit group of 1000 or more,
NUM_GROUP2 at a 7-bit group of 100 or more, NUM_GROUP1 at a 4-bit group of 10 or more; OFFSET points just after that group
(R271). -/
def Obligations.NumericFaultAtFirstBadGroup : Prop :=
  (∀ (sc : SizeClass) (pre post : List (BitVec 10)) (g : BitVec 10) (rest : NumRest) (s : State),
    (∀ u ∈ pre, u.toNat < 1000) → 1000 ≤ g.toNat →
    ∃ t, exec (numInstr sc ⟨pre ++ g :: post, rest⟩) s = .next t ∧
      sameButLists { s with offset := s.offset + (4 + countWidth .num sc + 10 * (pre.length + 1)),
                            cause := .numGroup3, status := .fault } t) ∧
  (∀ (sc : SizeClass) (gs : List (BitVec 10)) (g : BitVec 7) (s : State),
    (∀ u ∈ gs, u.toNat < 1000) → 100 ≤ g.toNat →
    ∃ t, exec (numInstr sc ⟨gs, .two g⟩) s = .next t ∧
      sameButLists { s with offset := s.offset + (4 + countWidth .num sc + 10 * gs.length + 7),
                            cause := .numGroup2, status := .fault } t) ∧
  (∀ (sc : SizeClass) (gs : List (BitVec 10)) (g : BitVec 4) (s : State),
    (∀ u ∈ gs, u.toNat < 1000) → 10 ≤ g.toNat →
    ∃ t, exec (numInstr sc ⟨gs, .one g⟩) s = .next t ∧
      sameButLists { s with offset := s.offset + (4 + countWidth .num sc + 10 * gs.length + 4),
                            cause := .numGroup1, status := .fault } t)

/-- R186, by the spec's decision D9. ALNUM in each size class completes when its indices are in the table (R183, R184):
each character's code unit goes to the chunk and to TEXT, its low byte to BYTES, in stream order, as many as the count
says. -/
def Obligations.AlphanumericSegmentResult : Prop :=
  ∀ (sc : SizeClass) (d : AlnumData) (s : State), (∀ i ∈ indices d, i ≤ 44) →
    exec (alnumInstr sc d) s = .next { s with
      offset := s.offset + (4 + countWidth .alnum sc + 11 * d.pairs.length + 6 * singleCount d.single)
      chunks := s.chunks ++ [.alphanumeric ((indices d).map fun i => alphabet.getD i 0)]
      text := s.text ++ (indices d).map fun i => alphabet.getD i 0
      bytes := s.bytes ++ (indices d).map fun i => BitVec.ofNat 8 ((alphabet.getD i 0).toNat % 256) } ∧
    (indices d).length = d.count

/-- R185, by the spec's decision D8. An index above 44 raises FormatError(ALNUM_INDEX), for the first character of a pair
and for the single alike; OFFSET points just after the pair or the single (R271). -/
def Obligations.AlphanumericFaultAtFirstBadIndex : Prop :=
  (∀ (sc : SizeClass) (pre post : List (BitVec 11)) (p : BitVec 11) (single : Option (BitVec 6)) (s : State),
    (∀ u ∈ pre, u.toNat / 45 ≤ 44) → 44 < p.toNat / 45 →
    ∃ t, exec (alnumInstr sc ⟨pre ++ p :: post, single⟩) s = .next t ∧
      sameButLists { s with offset := s.offset + (4 + countWidth .alnum sc + 11 * (pre.length + 1)),
                            cause := .alnumIndex, status := .fault } t) ∧
  (∀ (sc : SizeClass) (ps : List (BitVec 11)) (i : BitVec 6) (s : State),
    (∀ u ∈ ps, u.toNat / 45 ≤ 44) → 44 < i.toNat →
    ∃ t, exec (alnumInstr sc ⟨ps, some i⟩) s = .next t ∧
      sameButLists { s with offset := s.offset + (4 + countWidth .alnum sc + 11 * ps.length + 6),
                            cause := .alnumIndex, status := .fault } t)

/-- R203, by the spec's decision D26. BYTE in each size class always completes (R200, R202, R206): the bytes go verbatim
to the chunk and to BYTES; the text of the whole list under UTF8_DECODE, empty where it is invalid, to the chunk and to
TEXT. For every UTF8_DECODE. -/
def Obligations.ByteSegmentResult : Prop :=
  ∀ (sc : SizeClass) (bs : List Byte) (s : State) (t : List CodeUnit),
    (utf8Decode s.utf8 bs = some t ∨ (utf8Decode s.utf8 bs = none ∧ t = [])) →
    exec (byteInstr sc bs) s = .next { s with
      offset := s.offset + (4 + countWidth .byte sc + 8 * bs.length)
      chunks := s.chunks ++ [.byte bs t]
      text := s.text ++ t
      bytes := s.bytes ++ bs }

/-- R222, R227. KANJI in each size class completes when SJIS_TABLE has its codes: each code's high byte and low byte go
to BYTES (R224), its one code unit to TEXT (R225). -/
def Obligations.KanjiSegmentResult : Prop :=
  ∀ (sc : SizeClass) (ks : List (BitVec 13)) (s : State) (unit : BitVec 13 → CodeUnit),
    (∀ k ∈ ks, s.sjis.lookup (BitVec.ofNat 16 (shiftJis k)) = some (unit k)) →
    exec (kanjiInstr sc ks) s = .next { s with
      offset := s.offset + (4 + countWidth .kanji sc + 13 * ks.length)
      chunks := s.chunks ++ [.kanji (ks.flatMap fun k => [BitVec.ofNat 8 (shiftJis k / 256), BitVec.ofNat 8 (shiftJis k % 256)])
        (ks.map unit)]
      text := s.text ++ ks.map unit
      bytes := s.bytes ++ ks.flatMap fun k => [BitVec.ofNat 8 (shiftJis k / 256), BitVec.ofNat 8 (shiftJis k % 256)] }

/-- R262. KANJI takes the fault KANJI_UNMAPPED at the first code, in stream order, that SJIS_TABLE lacks; OFFSET points
just after it (R271). -/
def Obligations.KanjiFaultAtFirstUnmappedCode : Prop :=
  ∀ (sc : SizeClass) (pre post : List (BitVec 13)) (k : BitVec 13) (s : State),
    (∀ u ∈ pre, (s.sjis.lookup (BitVec.ofNat 16 (shiftJis u))).isSome) →
    s.sjis.lookup (BitVec.ofNat 16 (shiftJis k)) = none →
    ∃ t, exec (kanjiInstr sc (pre ++ k :: post)) s = .next t ∧
      sameButLists { s with offset := s.offset + (4 + countWidth .kanji sc + 13 * (pre.length + 1)),
                            cause := .kanjiUnmapped, status := .fault } t

/-- R136, R243. The four ECI forms complete: the chunk ECI with the value as it stands, or −1 for the selector `111`, is
appended to CHUNKS; nothing goes to TEXT or BYTES; OFFSET moves by 12, 20, 28 or 7
(R242). -/
def Obligations.EciSegmentResult : Prop :=
  ∀ s : State,
    (∀ v : BitVec 7, exec (.eci7 v) s =
      .next { s with offset := s.offset + 12, chunks := s.chunks ++ [.eci (v.toNat : Int)] }) ∧
    (∀ v : BitVec 14, exec (.eci14 v) s =
      .next { s with offset := s.offset + 20, chunks := s.chunks ++ [.eci (v.toNat : Int)] }) ∧
    (∀ v : BitVec 21, exec (.eci21 v) s =
      .next { s with offset := s.offset + 28, chunks := s.chunks ++ [.eci (v.toNat : Int)] }) ∧
    exec .eciBad s = .next { s with offset := s.offset + 7, chunks := s.chunks ++ [.eci (-1)] }

/-- R133. TERM completes: OFFSET moves past the indicator and STATUS becomes DONE; no chunk is appended. -/
def Obligations.TerminatorEndsTheRun : Prop :=
  ∀ s : State, exec .term s = .next { s with offset := s.offset + 4, status := .done }

/-- R137, by the spec's decision D6. The ten reserved indicators complete as 4-bit no-operations. -/
def Obligations.ReservedIndicatorsAreNoOperations : Prop :=
  ∀ s : State, ∀ i ∈ [Instr.rsvd3, .rsvd5, .rsvd6, .rsvd9, .rsvd10, .rsvd11, .rsvd12, .rsvd13, .rsvd14, .rsvd15],
    exec i s = .next { s with offset := s.offset + 4 }

/-- Derived (R142, R202, R207; the spec's decision D23). A byte segment is decoded from BUF whether or not BUF holds it: a
step at indicator 0x4 reads the count, then count bytes of 8 bits each with missing bits zero, adds them to BYTES, and
goes on with OFFSET past the nominal length, without a fault. -/
def Obligations.ByteSegmentStepReadsTheBuffer : Prop :=
  ∀ (s : State) (sc : SizeClass), s.pending = none → s.status = .run → sizeClass s.version = some sc →
    4 ≤ s.available → s.memRead s.offset 4 = 0x4 →
    let w := countWidth .byte sc
    let c := s.memRead (s.offset + 4) w
    ∃ t, step s = .next t ∧ t.status = .run ∧ t.cause = s.cause ∧ t.offset = s.offset + (4 + w + 8 * c) ∧
      t.bytes = s.bytes ++
        (List.range c).map fun i => BitVec.ofNat 8 (s.memRead (s.offset + 4 + w + 8 * i) 8)

/-! ### Tables and texts -/

/-- R181. ALPHABET has 45 entries, by the closed form of the rule (the codes are ASCII's, which the spec takes from general
knowledge, K6). -/
def Obligations.AlphabetTable : Prop :=
  alphabet.length = 45 ∧
  (∀ i, i ≤ 9 → alphabet.getD i 0 = BitVec.ofNat 16 (0x30 + i)) ∧
  (∀ i, 10 ≤ i → i ≤ 35 → alphabet.getD i 0 = BitVec.ofNat 16 (0x41 + (i - 10))) ∧
  alphabet.drop 36 = [0x20, 0x24, 0x25, 0x2A, 0x2B, 0x2D, 0x2E, 0x2F, 0x3A]

/-- Derived (R223, which the spec infers from R222). The code of a 13-bit value, by ranges: high byte and low byte as the
rule gives them, no carry between them; the ends of the two ranges; and no two values have the same code. -/
def Obligations.KanjiCodeRangesAndInjectivity : Prop :=
  (∀ k : BitVec 13, k.toNat / 192 ≤ 30 →
    (kanjiCode k).toNat = 256 * (0x81 + k.toNat / 192) + (0x40 + k.toNat % 192) ∧ 0x40 + k.toNat % 192 ≤ 0xFF ∧
    0x8140 ≤ (kanjiCode k).toNat ∧ (kanjiCode k).toNat ≤ 0x9FFF) ∧
  (∀ k : BitVec 13, 31 ≤ k.toNat / 192 →
    (kanjiCode k).toNat = 256 * (0xC1 + k.toNat / 192) + (0x40 + k.toNat % 192) ∧ 0x40 + k.toNat % 192 ≤ 0xFF ∧
    0xE040 ≤ (kanjiCode k).toNat ∧ (kanjiCode k).toNat ≤ 0xEBBF) ∧
  (kanjiCode 0 = 0x8140 ∧ kanjiCode 5951 = 0x9FFF ∧ kanjiCode 5952 = 0xE040 ∧ kanjiCode 8191 = 0xEBBF) ∧
  (∀ k k' : BitVec 13, kanjiCode k = kanjiCode k' → k = k')

/-- Derived (R205, which the spec takes from general knowledge, K3). The recommended default of UTF8_DECODE: a byte list
is valid exactly when it is a concatenation of sequences of the nine rows, and its text is the code units of their scalar
values. -/
def Obligations.StrictUtf8IsTheTableOfR205 : Prop :=
  ∀ (bs : List Byte) (us : List CodeUnit), utf8Strict bs = some us ↔ Utf8Text bs us

/-- Derived (R95, R162, R166; S1 of spec/95_test_vectors.md). For every digit string, the numeric segment the notation
assembles for it has its length as count; where the count field can hold that length, the segment's bits decode to it; and
run, it appends exactly its digits. -/
def Obligations.NumericRoundTrip : Prop :=
  ∀ (sc : SizeClass) (ds : List (Fin 10)) (s : State), (numOfDigits ds).count = ds.length ∧
    (ds.length < 2 ^ countWidth .num sc →
      decodeSegment sc (bitOfList (encode (numInstr sc (numOfDigits ds)))) 0 = numInstr sc (numOfDigits ds)) ∧
    ∃ t, exec (numInstr sc (numOfDigits ds)) s = .next t ∧ t.status = s.status ∧
      t.text = s.text ++ ds.map (fun x => BitVec.ofNat 16 (0x30 + x.val)) ∧
      t.bytes = s.bytes ++ ds.map (fun x => BitVec.ofNat 8 (0x30 + x.val))

/-- Derived (R95, R183, R187; S2 of spec/95_test_vectors.md; the bytes by the spec's decision D9). For every string over
the alphabet, the alphanumeric segment the notation assembles for it has its length as count; where the count field can
hold that length, the segment's bits decode to it; and run, it appends exactly its characters and their codes. -/
def Obligations.AlphanumericRoundTrip : Prop :=
  ∀ (sc : SizeClass) (is : List (Fin 45)) (s : State), (alnumOfIndices is).count = is.length ∧
    (is.length < 2 ^ countWidth .alnum sc →
      decodeSegment sc (bitOfList (encode (alnumInstr sc (alnumOfIndices is)))) 0 = alnumInstr sc (alnumOfIndices is)) ∧
    ∃ t, exec (alnumInstr sc (alnumOfIndices is)) s = .next t ∧ t.status = s.status ∧
      t.text = s.text ++ is.map (fun x => alphabet.getD x.val 0) ∧
      t.bytes = s.bytes ++ is.map (fun x => BitVec.ofNat 8 ((alphabet.getD x.val 0).toNat % 256))

/-! ### Invariants and the whole machine -/

/-- Derived (R21, R25, R27, R29, R37, R50). The invariant of a decode is kept by every step, the host's commands included.
-/
def Obligations.EveryStepKeepsTheInvariant : Prop :=
  ∀ s t : State, s.Inv → step s = .next t → t.Inv

/-- Derived (R36). The invariant holds right after reset. -/
def Obligations.ResetMeetsTheInvariant : Prop := State.reset.Inv

/-- Derived (R23). With no command of the host but START pending, OFFSET never exceeds 8×LEN + 524296: kept by every step.
And a step that begins with 4 bits left begins with OFFSET at most 8×LEN − 4. -/
def Obligations.OffsetStaysBounded : Prop :=
  (∀ s t : State, s.OffsetInv → step s = .next t → t.OffsetInv) ∧
  (∀ s : State, 4 ≤ s.available → s.offset ≤ 8 * s.len - 4)

/-- Derived (R22, R116, R140). OFFSET never decreases in a step of the sequencer, and a segment step moves it by at least
4. -/
def Obligations.OffsetOnlyIncreases : Prop :=
  ∀ s t : State, s.pending = none → step s = .next t →
    s.offset ≤ t.offset ∧ (4 ≤ s.available → s.offset + 4 ≤ t.offset)

/-- Derived (R140). Every decode ends: from any state of a run, after at most 2×LEN + 1 steps STATUS is DONE or FAULT. -/
def Obligations.EveryDecodeEnds : Prop :=
  ∀ s : State, s.pending = none → s.status = .run → (sizeClass s.version).isSome →
    ∃ k t, k ≤ 2 * s.len + 1 ∧ run k s = .next t ∧ t.over = true

/-- Derived (R141 with R112, R160, R180, R200, R220, R240; R30). The step is the pseudocode: decoding a segment and then
running it leaves the same architectural state as reading, judging and emitting it field by field through the working
registers at their widths, whatever the working registers hold when the step begins, but for SCR, which holds the size
class throughout. -/
def Obligations.AStepIsThePseudocodeOverRegisters : Prop :=
  ∀ (m : Rtl) (sc : SizeClass), m.arch.pending = none → m.arch.status = .run → sizeClass m.arch.version = some sc →
    m.work.scr = sc.code → step m.arch = .next m.step.arch ∧ m.step.work.scr = sc.code

/-- Derived (R311, which the spec infers from R141 and R300). Two decodes started on the same BUF, LEN, VERSION,
SJIS_TABLE and UTF8_DECODE go through the same states, whatever the block held before START (the last answer of a cursor
command is no part of a decode). -/
def Obligations.ADecodeDependsOnItsInputsOnly : Prop :=
  ∀ (k : Nat) (s s' t : State), s.pending = some .start → s'.pending = some .start → s.status ≠ .run → s'.status ≠ .run →
    s.mem = s'.mem → s.len = s'.len → s.version = s'.version → s.sjis = s'.sjis → s.utf8 = s'.utf8 →
    run (k + 1) s = .next t →
    run (k + 1) s' = .next { t with reply := s'.reply }

/-- Derived (R21, R51, R307). No step of the sequencer writes BUF, LEN, VERSION, the configuration or the host's ports. -/
def Obligations.NoStepWritesTheInputs : Prop :=
  ∀ s t : State, s.pending = none → step s = .next t →
    t.mem = s.mem ∧ t.len = s.len ∧ t.version = s.version ∧ t.sjis = s.sjis ∧ t.utf8 = s.utf8 ∧
    t.pending = s.pending ∧ t.reply = s.reply ∧ t.resultVersion = s.resultVersion

/-- Derived (R35, R67, R82, R244). What has been accumulated steers nothing: from two states that differ in the result
lists only, a step leads to the same OFFSET, STATUS and CAUSE and, unless a fault is taken, appends the same text, bytes
and chunks to both and takes nothing away. So no segment, an ECI segment among them, changes how a later one decodes
except through OFFSET. -/
def Obligations.TheResultListsSteerNothing : Prop :=
  ∀ (s t : State) (x : List CodeUnit) (y : List Byte) (z : List Chunk), s.pending = none → step s = .next t →
    ∃ t', step { s with text := x, bytes := y, chunks := z } = .next t' ∧ sameButLists t t' ∧
      (t.status ≠ .fault → ∃ dx dy dz, t.text = s.text ++ dx ∧ t'.text = x ++ dx ∧ t.bytes = s.bytes ++ dy ∧
        t'.bytes = y ++ dy ∧ t.chunks = s.chunks ++ dz ∧ t'.chunks = z ++ dz)

/-- Derived (R260, R265). Which instruction can take which fault, and that no other can take any: BYTE, ECI, TERM, the
reserved indicators and the cursor's commands never lead to FAULT. -/
def Obligations.FaultsComeFromTheTaxonomy : Prop :=
  ∀ (i : Instr) (s t : State), s.status ≠ .fault → exec i s = .next t → t.status = .fault →
    (∃ sc d, i = numInstr sc d ∧ (t.cause = .numGroup3 ∨ t.cause = .numGroup2 ∨ t.cause = .numGroup1)) ∨
    (∃ sc d, i = alnumInstr sc d ∧ t.cause = .alnumIndex) ∨
    (∃ sc ks, i = kanjiInstr sc ks ∧ t.cause = .kanjiUnmapped)

/-- Derived (R310). The ways to DONE: a step of a run reaches it exactly when it finds a terminator indicator with 4 bits
left, or fewer than 4 bits left, none or all zero. -/
def Obligations.TheWaysToDone : Prop :=
  ∀ s t : State, s.pending = none → step s = .next t →
    (t.status = .done ↔ (4 ≤ s.available ∧ s.memRead s.offset 4 = 0) ∨
      (s.available < 4 ∧ s.memRead s.offset s.available = 0))

/-- Derived (R272, R300, R308). Nothing leaves DONE or FAULT but a new START: a step that begins there and takes up
anything else, a new buffer with another VERSION too, leaves STATUS, CAUSE and what the host reads of the finished decode
as they are. -/
def Obligations.OnlyStartLeavesAFinalStatus : Prop :=
  ∀ s t : State, s.over = true → s.pending ≠ some .start → step s = .next t →
    t.status = s.status ∧ t.cause = s.cause ∧ t.hostView = s.hostView

/-- Derived (R29, R21, R37). A decode that ends in DONE shows the host its lists and the VERSION it was started with, which
is the one at the block's input throughout the decode. -/
def Obligations.TheResultEchoesTheVersion : Prop :=
  ∀ (k : Nat) (s t : State), s.pending = some .start → s.status ≠ .run → run (k + 1) s = .next t → t.status = .done →
    t.hostView = .result ⟨t.text, t.bytes, t.chunks, s.version⟩ ∧ t.version = s.version

/-- Derived (R5, R38, R269). While a decode runs the host has no step: whatever it asks is refused, a command word of the
cursor too, so only the sequencer reads or writes OFFSET and the lists, and no decode is paused or disturbed. The pending
port is the model's choice, notes/assumptions/10.md. -/
def Obligations.TheHostHasNoStepInRun : Prop :=
  ∀ (s : State) (c : HostCmd), s.status = .run → s.pending = some c →
    (∃ r, step s = .refused r) ∧ ((∃ w, c = .cursor w) → step s = .refused .cursorWhileRunning)

/-- Derived (R6, R304). Outside RUN the host sets the configuration: SJIS_TABLE and UTF8_DECODE are those it gives, and
nothing else changes. The pending port is the model's choice, notes/assumptions/10.md. -/
def Obligations.AConfigureSetsTheParameters : Prop :=
  ∀ (s : State) (tab : List (CodeUnit × CodeUnit)) (dec : Utf8Decoder), s.status ≠ .run →
    s.pending = some (.configure tab dec) → step s = .next { s with sjis := tab, utf8 := dec, pending := none }
end

