-- ==== Sys2Proof/Laws/Bits.lean ====
section
/-! SUPPORT. Reading numbers and fields from a bit source, and the bits the encoder writes for them: bounds, the split
law (R54, R117), and that each is the other's inverse. -/

namespace Sys2Proof

/-! ### Reading a number -/

theorem readNat_lt (bit : Nat → Bool) (j n : Nat) : readNat bit j n < 2 ^ n := by
  induction n with
  | zero => simp [readNat]
  | succ n ih =>
    have hb : (bit (j + n)).toNat ≤ 1 := Bool.toNat_le _
    simp only [readNat, Nat.pow_succ]; omega

/-- A read of `a + b` bits is a read of `a` bits and one of `b` bits after it (R54). -/
theorem readNat_add (bit : Nat → Bool) (j a b : Nat) :
    readNat bit j (a + b) = readNat bit j a * 2 ^ b + readNat bit (j + a) b := by
  induction b with
  | zero => simp [readNat]
  | succ b ih =>
    rw [← Nat.add_assoc, readNat, ih, readNat, Nat.pow_succ, ← Nat.add_assoc]; ring

theorem readNat_congr {bit bit' : Nat → Bool} {j j' n : Nat} (h : ∀ k < n, bit (j + k) = bit' (j' + k)) :
    readNat bit j n = readNat bit' j' n := by
  induction n with
  | zero => rfl
  | succ n ih => rw [readNat, readNat, ih fun k hk => h k (by omega), h n (by omega)]

theorem readNat_eq_zero {bit : Nat → Bool} {j n : Nat} (h : ∀ k < n, bit (j + k) = false) : readNat bit j n = 0 := by
  induction n with
  | zero => rfl
  | succ n ih => rw [readNat, ih fun k hk => h k (by omega), h n (by omega)]; rfl

theorem testBit_readNat (bit : Nat → Bool) (j n i : Nat) :
    (readNat bit j n).testBit i = (decide (i < n) && bit (j + (n - 1 - i))) := by
  induction n generalizing i with
  | zero => simp [readNat]
  | succ n ih =>
    have e : readNat bit j (n + 1) = Nat.bit (bit (j + n)) (readNat bit j n) := by
      rw [readNat, Nat.bit_val]
    rw [e]
    cases i with
    | zero => simp
    | succ i =>
      rw [Nat.testBit_bit_succ, ih, show n + 1 - 1 - (i + 1) = n - 1 - i by omega]
      simp

/-! ### Sources that begin with given bits -/

/-- From bit address `j` the source reads the bits of the list. -/
def Reads (bit : Nat → Bool) (j : Nat) (l : List Bool) : Prop := ∀ k < l.length, bit (j + k) = l.getD k false

theorem reads_nil (bit : Nat → Bool) (j : Nat) : Reads bit j [] := fun k hk => absurd hk (by simp)

theorem reads_append {bit : Nat → Bool} {j : Nat} {l r : List Bool} :
    Reads bit j (l ++ r) ↔ Reads bit j l ∧ Reads bit (j + l.length) r := by
  constructor
  · intro h
    refine ⟨fun k hk => ?_, fun k hk => ?_⟩
    · rw [h k (by simp; omega), List.getD_append _ _ _ _ hk]
    · rw [Nat.add_assoc, h (l.length + k) (by simp; omega), List.getD_append_right _ _ _ _ (by omega)]
      congr 1; omega
  · rintro ⟨h1, h2⟩ k hk
    by_cases hl : k < l.length
    · rw [h1 k hl, List.getD_append _ _ _ _ hl]
    · rw [List.getD_append_right _ _ _ _ (by omega), ← h2 (k - l.length) (by simp at hk; omega)]
      congr 1; omega

theorem reads_cons {bit : Nat → Bool} {j : Nat} {b : Bool} {l : List Bool} :
    Reads bit j (b :: l) ↔ bit j = b ∧ Reads bit (j + 1) l := by
  rw [show b :: l = [b] ++ l from rfl, reads_append]
  refine and_congr_left fun _ => ⟨fun h => by simpa using h 0 (by simp), fun h k hk => ?_⟩
  obtain rfl : k = 0 := by simpa using hk
  simpa using h

/-- A source that begins with a list at `j` and one that is equal to it there. -/
theorem Reads.getD {bit : Nat → Bool} {j : Nat} {l : List Bool} (h : Reads bit j l) {k : Nat} (hk : k < l.length) :
    bit (j + k) = l.getD k false := h k hk

/-! ### The bits of a number -/

@[simp] theorem length_bitsOf (n v : Nat) : (bitsOf n v).length = n := by
  induction n with
  | zero => rfl
  | succ n ih => rw [bitsOf, List.length_cons, ih]

theorem getD_bitsOf (n v k : Nat) (h : k < n) : (bitsOf n v).getD k false = v.testBit (n - 1 - k) := by
  induction n generalizing k with
  | zero => omega
  | succ n ih =>
    cases k with
    | zero => rw [bitsOf, List.getD_cons_zero]; rfl
    | succ k => rw [bitsOf, List.getD_cons_succ, ih k (by omega), show n + 1 - 1 - (k + 1) = n - 1 - k by omega]

/-- Reading what the encoder wrote gives the number back. -/
theorem readNat_of_reads {bit : Nat → Bool} {j n v : Nat} (h : Reads bit j (bitsOf n v)) (hv : v < 2 ^ n) :
    readNat bit j n = v := by
  refine Nat.eq_of_testBit_eq fun i => ?_
  rw [testBit_readNat]
  by_cases hi : i < n
  · have := h (n - 1 - i) (by rw [length_bitsOf]; omega)
    rw [getD_bitsOf n v _ (by omega), show n - 1 - (n - 1 - i) = i by omega] at this
    simp [hi, this]
  · simp only [hi, decide_false, Bool.false_and]
    exact (Nat.testBit_lt_two_pow (Nat.lt_of_lt_of_le hv (Nat.pow_le_pow_right (by omega) (by omega)))).symm

/-- The source reads the bits of the number it was read as. -/
theorem reads_readNat (bit : Nat → Bool) (j n : Nat) : Reads bit j (bitsOf n (readNat bit j n)) := by
  intro k hk
  rw [length_bitsOf] at hk
  rw [getD_bitsOf n _ k hk, testBit_readNat, show n - 1 - (n - 1 - k) = k by omega]
  simp [show n - 1 - k < n by omega]

/-! ### Fields -/

@[simp] theorem toNat_field (bit : Nat → Bool) (j w : Nat) : (field bit j w).toNat = readNat bit j w := by
  rw [field, BitVec.toNat_ofNat, Nat.mod_eq_of_lt (readNat_lt bit j w)]

theorem field_of_reads {bit : Nat → Bool} {j w : Nat} {v : BitVec w} (h : Reads bit j (bitsOf w v.toNat)) :
    field bit j w = v := by
  refine BitVec.eq_of_toNat_eq ?_
  rw [toNat_field, readNat_of_reads h v.isLt]

theorem reads_field (bit : Nat → Bool) (j w : Nat) : Reads bit j (bitsOf w (field bit j w).toNat) := by
  rw [toNat_field]; exact reads_readNat bit j w

@[simp] theorem length_fields (bit : Nat → Bool) (w c j : Nat) : (fields bit w c j).length = c := by
  induction c generalizing j with
  | zero => rfl
  | succ c ih => rw [fields, List.length_cons, ih]

theorem fieldBits_cons {w : Nat} (v : BitVec w) (vs : List (BitVec w)) :
    fieldBits (v :: vs) = bitsOf w v.toNat ++ fieldBits vs := by simp only [fieldBits, List.flatMap_cons]

@[simp] theorem length_fieldBits {w : Nat} (vs : List (BitVec w)) : (fieldBits vs).length = w * vs.length := by
  induction vs with
  | nil => rfl
  | cons v vs ih => rw [fieldBits_cons, List.length_append, ih, length_bitsOf, List.length_cons]; ring

theorem fields_of_reads {bit : Nat → Bool} {w j : Nat} {vs : List (BitVec w)} (h : Reads bit j (fieldBits vs)) :
    fields bit w vs.length j = vs := by
  induction vs generalizing j with
  | nil => rfl
  | cons v vs ih =>
    rw [fieldBits_cons, reads_append, length_bitsOf] at h
    rw [List.length_cons, fields, field_of_reads h.1, ih h.2]

theorem reads_fields (bit : Nat → Bool) (w c j : Nat) : Reads bit j (fieldBits (fields bit w c j)) := by
  induction c generalizing j with
  | zero => exact reads_nil bit j
  | succ c ih =>
    rw [fields, fieldBits_cons, reads_append, length_bitsOf]
    exact ⟨reads_field bit j w, ih (j + w)⟩

end Sys2Proof
end

