-- ==== Sys2Proof/Laws/Decode.lean ====
section
/-! SUPPORT. What each field decoder answers on the bits the encoder writes, what count a decoded segment has, and that the
decoder never gives a command of the Bit Cursor. -/

namespace Sys2Proof

/-- The mode indicator as a number, from its four bits (R81). -/
theorem readNat_four (bit : Nat → Bool) (j : Nat) :
    readNat bit j 4 =
      8 * (bit j).toNat + 4 * (bit (j + 1)).toNat + 2 * (bit (j + 2)).toNat + (bit (j + 3)).toNat := by
  simp only [readNat, Nat.add_zero]; omega

/-- Fields one after another are the fields at evenly spaced addresses. -/
theorem fields_eq_map (bit : Nat → Bool) (w c j : Nat) :
    fields bit w c j = (List.range c).map fun i => field bit (j + w * i) w := by
  induction c generalizing j with
  | zero => rfl
  | succ c ih =>
    rw [fields, ih, List.range_succ_eq_map, List.map_cons, List.map_map]
    simp only [Nat.mul_zero, Nat.add_zero, List.cons.injEq, true_and]
    refine List.map_congr_left fun i _ => ?_
    simp only [Function.comp]
    congr 1
    rw [Nat.mul_succ]; omega

theorem lt_of_countFits {m : ContentMode} {sc : SizeClass} {c : Nat} (h : countFits m sc c = true) :
    c < 2 ^ countWidth m sc := by simpa [countFits] using h

theorem length_restEncode (r : NumRest) : r.encode.length = r.bits := by
  cases r <;> simp only [NumRest.encode, NumRest.bits, List.length_nil, length_bitsOf]

theorem length_singleBits (r : Option (BitVec 6)) : (singleBits r).length = 6 * singleCount r := by
  cases r <;> simp only [singleBits, singleCount, List.length_nil, length_bitsOf]

/-! ### The field decoders on what the encoder writes -/

theorem decodeNum_of_reads {sc : SizeClass} {bit : Nat → Bool} {j : Nat} {d : NumData}
    (hc : d.count < 2 ^ countWidth .num sc)
    (h : Reads bit j (bitsOf (countWidth .num sc) d.count ++ fieldBits d.groups ++ d.rest.encode)) :
    decodeNum sc bit j = d := by
  rw [reads_append, reads_append] at h
  obtain ⟨⟨h1, h2⟩, h3⟩ := h
  simp only [List.length_append, length_bitsOf, length_fieldBits, ← Nat.add_assoc] at h2 h3
  have hn := readNat_of_reads h1 hc
  obtain ⟨gs, r⟩ := d
  have hr : r.count < 3 := by cases r <;> simp [NumRest.count]
  have hd : NumData.count ⟨gs, r⟩ / 3 = gs.length := by simp only [NumData.count]; omega
  have hm : NumData.count ⟨gs, r⟩ % 3 = r.count := by simp only [NumData.count]; omega
  simp only [decodeNum, hn, hd, hm]
  rw [fields_of_reads h2]
  congr 1
  cases r with
  | none => rfl
  | one g => exact congrArg NumRest.one (field_of_reads h3)
  | two g => exact congrArg NumRest.two (field_of_reads h3)

theorem decodeAlnum_of_reads {sc : SizeClass} {bit : Nat → Bool} {j : Nat} {d : AlnumData}
    (hc : d.count < 2 ^ countWidth .alnum sc)
    (h : Reads bit j (bitsOf (countWidth .alnum sc) d.count ++ fieldBits d.pairs ++ singleBits d.single)) :
    decodeAlnum sc bit j = d := by
  rw [reads_append, reads_append] at h
  obtain ⟨⟨h1, h2⟩, h3⟩ := h
  simp only [List.length_append, length_bitsOf, length_fieldBits, ← Nat.add_assoc] at h2 h3
  have hn := readNat_of_reads h1 hc
  obtain ⟨ps, r⟩ := d
  have hr : singleCount r < 2 := by cases r <;> simp [singleCount]
  have hd : AlnumData.count ⟨ps, r⟩ / 2 = ps.length := by simp only [AlnumData.count]; omega
  have hm : AlnumData.count ⟨ps, r⟩ % 2 = singleCount r := by simp only [AlnumData.count]; omega
  simp only [decodeAlnum, hn, hd, hm]
  rw [fields_of_reads h2]
  congr 1
  cases r with
  | none => rfl
  | some g => exact congrArg some (field_of_reads h3)

theorem decodeBytes_of_reads {sc : SizeClass} {bit : Nat → Bool} {j : Nat} {bs : List Byte}
    (hc : bs.length < 2 ^ countWidth .byte sc)
    (h : Reads bit j (bitsOf (countWidth .byte sc) bs.length ++ fieldBits bs)) : decodeBytes sc bit j = bs := by
  rw [reads_append] at h
  have h2 := h.2
  rw [length_bitsOf] at h2
  simp only [decodeBytes, readNat_of_reads h.1 hc]
  exact fields_of_reads h2

theorem decodeKanji_of_reads {sc : SizeClass} {bit : Nat → Bool} {j : Nat} {ks : List (BitVec 13)}
    (hc : ks.length < 2 ^ countWidth .kanji sc)
    (h : Reads bit j (bitsOf (countWidth .kanji sc) ks.length ++ fieldBits ks)) : decodeKanji sc bit j = ks := by
  rw [reads_append] at h
  have h2 := h.2
  rw [length_bitsOf] at h2
  simp only [decodeKanji, readNat_of_reads h.1 hc]
  exact fields_of_reads h2

/-! ### Counts, and the kind of a decoded segment -/

theorem decodeNum_count (sc : SizeClass) (bit : Nat → Bool) (j : Nat) :
    (decodeNum sc bit j).count = readNat bit j (countWidth .num sc) := by
  simp only [decodeNum, NumData.count, length_fields]
  split
  · simp only [NumRest.count]; omega
  · split <;> simp only [NumRest.count] <;> omega

theorem decodeAlnum_count (sc : SizeClass) (bit : Nat → Bool) (j : Nat) :
    (decodeAlnum sc bit j).count = readNat bit j (countWidth .alnum sc) := by
  simp only [decodeAlnum, AlnumData.count, length_fields]
  split <;> simp only [singleCount] <;> omega

theorem length_decodeBytes (sc : SizeClass) (bit : Nat → Bool) (j : Nat) :
    (decodeBytes sc bit j).length = readNat bit j (countWidth .byte sc) := length_fields _ _ _ _

theorem length_decodeKanji (sc : SizeClass) (bit : Nat → Bool) (j : Nat) :
    (decodeKanji sc bit j).length = readNat bit j (countWidth .kanji sc) := length_fields _ _ _ _

/-- No bits of a stream decode to a command of the Bit Cursor (R97). -/
theorem decodeSegment_isCommand (sc : SizeClass) (bit : Nat → Bool) (j : Nat) :
    (decodeSegment sc bit j).isCommand = false := by
  unfold decodeSegment
  split
  case h_8 =>
    unfold decodeEci
    split
    · rfl
    · split
      · rfl
      · split <;> rfl
  all_goals first | rfl | (cases sc <;> rfl)

end Sys2Proof
end

