-- ==== Sys2Proof/Laws/State.lean ====
section
/-! SUPPORT. One lemma per field of `State` per update operation of Machine/Ops.lean, all by `rfl`, so that no later proof
unfolds a record update. Then what the derived reads (`bufBit`, `memRead`, `available`) depend on. -/

namespace Sys2Proof.Machine

variable (s : State)

/-! ### advance -/

@[simp] theorem advance_mem (n : Nat) : (s.advance n).mem = s.mem := rfl
@[simp] theorem advance_len (n : Nat) : (s.advance n).len = s.len := rfl
@[simp] theorem advance_version (n : Nat) : (s.advance n).version = s.version := rfl
@[simp] theorem advance_sjis (n : Nat) : (s.advance n).sjis = s.sjis := rfl
@[simp] theorem advance_utf8 (n : Nat) : (s.advance n).utf8 = s.utf8 := rfl
@[simp] theorem advance_status (n : Nat) : (s.advance n).status = s.status := rfl
@[simp] theorem advance_cause (n : Nat) : (s.advance n).cause = s.cause := rfl
@[simp] theorem advance_offset (n : Nat) : (s.advance n).offset = s.offset + n := rfl
@[simp] theorem advance_text (n : Nat) : (s.advance n).text = s.text := rfl
@[simp] theorem advance_bytes (n : Nat) : (s.advance n).bytes = s.bytes := rfl
@[simp] theorem advance_chunks (n : Nat) : (s.advance n).chunks = s.chunks := rfl
@[simp] theorem advance_resultVersion (n : Nat) : (s.advance n).resultVersion = s.resultVersion := rfl
@[simp] theorem advance_pending (n : Nat) : (s.advance n).pending = s.pending := rfl
@[simp] theorem advance_reply (n : Nat) : (s.advance n).reply = s.reply := rfl

/-! ### answer -/

@[simp] theorem answer_mem (v : Nat) : (s.answer v).mem = s.mem := rfl
@[simp] theorem answer_len (v : Nat) : (s.answer v).len = s.len := rfl
@[simp] theorem answer_version (v : Nat) : (s.answer v).version = s.version := rfl
@[simp] theorem answer_sjis (v : Nat) : (s.answer v).sjis = s.sjis := rfl
@[simp] theorem answer_utf8 (v : Nat) : (s.answer v).utf8 = s.utf8 := rfl
@[simp] theorem answer_status (v : Nat) : (s.answer v).status = s.status := rfl
@[simp] theorem answer_cause (v : Nat) : (s.answer v).cause = s.cause := rfl
@[simp] theorem answer_offset (v : Nat) : (s.answer v).offset = s.offset := rfl
@[simp] theorem answer_text (v : Nat) : (s.answer v).text = s.text := rfl
@[simp] theorem answer_bytes (v : Nat) : (s.answer v).bytes = s.bytes := rfl
@[simp] theorem answer_chunks (v : Nat) : (s.answer v).chunks = s.chunks := rfl
@[simp] theorem answer_resultVersion (v : Nat) : (s.answer v).resultVersion = s.resultVersion := rfl
@[simp] theorem answer_pending (v : Nat) : (s.answer v).pending = s.pending := rfl
@[simp] theorem answer_reply (v : Nat) : (s.answer v).reply = v := rfl

/-! ### raise -/

@[simp] theorem raise_mem (c : Cause) : (s.raise c).mem = s.mem := rfl
@[simp] theorem raise_len (c : Cause) : (s.raise c).len = s.len := rfl
@[simp] theorem raise_version (c : Cause) : (s.raise c).version = s.version := rfl
@[simp] theorem raise_sjis (c : Cause) : (s.raise c).sjis = s.sjis := rfl
@[simp] theorem raise_utf8 (c : Cause) : (s.raise c).utf8 = s.utf8 := rfl
@[simp] theorem raise_status (c : Cause) : (s.raise c).status = .fault := rfl
@[simp] theorem raise_cause (c : Cause) : (s.raise c).cause = c := rfl
@[simp] theorem raise_offset (c : Cause) : (s.raise c).offset = s.offset := rfl
@[simp] theorem raise_text (c : Cause) : (s.raise c).text = s.text := rfl
@[simp] theorem raise_bytes (c : Cause) : (s.raise c).bytes = s.bytes := rfl
@[simp] theorem raise_chunks (c : Cause) : (s.raise c).chunks = s.chunks := rfl
@[simp] theorem raise_resultVersion (c : Cause) : (s.raise c).resultVersion = s.resultVersion := rfl
@[simp] theorem raise_pending (c : Cause) : (s.raise c).pending = s.pending := rfl
@[simp] theorem raise_reply (c : Cause) : (s.raise c).reply = s.reply := rfl

/-! ### finish -/

@[simp] theorem finish_mem : (s.finish).mem = s.mem := rfl
@[simp] theorem finish_len : (s.finish).len = s.len := rfl
@[simp] theorem finish_version : (s.finish).version = s.version := rfl
@[simp] theorem finish_sjis : (s.finish).sjis = s.sjis := rfl
@[simp] theorem finish_utf8 : (s.finish).utf8 = s.utf8 := rfl
@[simp] theorem finish_status : (s.finish).status = .done := rfl
@[simp] theorem finish_cause : (s.finish).cause = s.cause := rfl
@[simp] theorem finish_offset : (s.finish).offset = s.offset := rfl
@[simp] theorem finish_text : (s.finish).text = s.text := rfl
@[simp] theorem finish_bytes : (s.finish).bytes = s.bytes := rfl
@[simp] theorem finish_chunks : (s.finish).chunks = s.chunks := rfl
@[simp] theorem finish_resultVersion : (s.finish).resultVersion = s.resultVersion := rfl
@[simp] theorem finish_pending : (s.finish).pending = s.pending := rfl
@[simp] theorem finish_reply : (s.finish).reply = s.reply := rfl

/-! ### accumulate -/

@[simp] theorem accumulate_mem (c : Chunk) (t : List CodeUnit) (b : List Byte) : (s.accumulate c t b).mem = s.mem := rfl
@[simp] theorem accumulate_len (c : Chunk) (t : List CodeUnit) (b : List Byte) : (s.accumulate c t b).len = s.len := rfl
@[simp] theorem accumulate_version (c : Chunk) (t : List CodeUnit) (b : List Byte) : (s.accumulate c t b).version = s.version := rfl
@[simp] theorem accumulate_sjis (c : Chunk) (t : List CodeUnit) (b : List Byte) : (s.accumulate c t b).sjis = s.sjis := rfl
@[simp] theorem accumulate_utf8 (c : Chunk) (t : List CodeUnit) (b : List Byte) : (s.accumulate c t b).utf8 = s.utf8 := rfl
@[simp] theorem accumulate_status (c : Chunk) (t : List CodeUnit) (b : List Byte) : (s.accumulate c t b).status = s.status := rfl
@[simp] theorem accumulate_cause (c : Chunk) (t : List CodeUnit) (b : List Byte) : (s.accumulate c t b).cause = s.cause := rfl
@[simp] theorem accumulate_offset (c : Chunk) (t : List CodeUnit) (b : List Byte) : (s.accumulate c t b).offset = s.offset := rfl
@[simp] theorem accumulate_text (c : Chunk) (t : List CodeUnit) (b : List Byte) : (s.accumulate c t b).text = s.text ++ t := rfl
@[simp] theorem accumulate_bytes (c : Chunk) (t : List CodeUnit) (b : List Byte) : (s.accumulate c t b).bytes = s.bytes ++ b := rfl
@[simp] theorem accumulate_chunks (c : Chunk) (t : List CodeUnit) (b : List Byte) : (s.accumulate c t b).chunks = s.chunks ++ [c] := rfl
@[simp] theorem accumulate_resultVersion (c : Chunk) (t : List CodeUnit) (b : List Byte) : (s.accumulate c t b).resultVersion = s.resultVersion := rfl
@[simp] theorem accumulate_pending (c : Chunk) (t : List CodeUnit) (b : List Byte) : (s.accumulate c t b).pending = s.pending := rfl
@[simp] theorem accumulate_reply (c : Chunk) (t : List CodeUnit) (b : List Byte) : (s.accumulate c t b).reply = s.reply := rfl

/-! ### accumulateEci -/

@[simp] theorem accumulateEci_mem (a : Int) : (s.accumulateEci a).mem = s.mem := rfl
@[simp] theorem accumulateEci_len (a : Int) : (s.accumulateEci a).len = s.len := rfl
@[simp] theorem accumulateEci_version (a : Int) : (s.accumulateEci a).version = s.version := rfl
@[simp] theorem accumulateEci_sjis (a : Int) : (s.accumulateEci a).sjis = s.sjis := rfl
@[simp] theorem accumulateEci_utf8 (a : Int) : (s.accumulateEci a).utf8 = s.utf8 := rfl
@[simp] theorem accumulateEci_status (a : Int) : (s.accumulateEci a).status = s.status := rfl
@[simp] theorem accumulateEci_cause (a : Int) : (s.accumulateEci a).cause = s.cause := rfl
@[simp] theorem accumulateEci_offset (a : Int) : (s.accumulateEci a).offset = s.offset := rfl
@[simp] theorem accumulateEci_text (a : Int) : (s.accumulateEci a).text = s.text := rfl
@[simp] theorem accumulateEci_bytes (a : Int) : (s.accumulateEci a).bytes = s.bytes := rfl
@[simp] theorem accumulateEci_chunks (a : Int) : (s.accumulateEci a).chunks = s.chunks ++ [.eci a] := rfl
@[simp] theorem accumulateEci_resultVersion (a : Int) : (s.accumulateEci a).resultVersion = s.resultVersion := rfl
@[simp] theorem accumulateEci_pending (a : Int) : (s.accumulateEci a).pending = s.pending := rfl
@[simp] theorem accumulateEci_reply (a : Int) : (s.accumulateEci a).reply = s.reply := rfl

/-! ### launch -/

@[simp] theorem launch_mem : (s.launch).mem = s.mem := rfl
@[simp] theorem launch_len : (s.launch).len = s.len := rfl
@[simp] theorem launch_version : (s.launch).version = s.version := rfl
@[simp] theorem launch_sjis : (s.launch).sjis = s.sjis := rfl
@[simp] theorem launch_utf8 : (s.launch).utf8 = s.utf8 := rfl
@[simp] theorem launch_status : (s.launch).status = .run := rfl
@[simp] theorem launch_cause : (s.launch).cause = .none := rfl
@[simp] theorem launch_offset : (s.launch).offset = 0 := rfl
@[simp] theorem launch_text : (s.launch).text = [] := rfl
@[simp] theorem launch_bytes : (s.launch).bytes = [] := rfl
@[simp] theorem launch_chunks : (s.launch).chunks = [] := rfl
@[simp] theorem launch_resultVersion : (s.launch).resultVersion = s.version := rfl
@[simp] theorem launch_pending : (s.launch).pending = s.pending := rfl
@[simp] theorem launch_reply : (s.launch).reply = s.reply := rfl

/-! ### Derived reads -/

/-- `BufBit` depends on BUF and LEN only. -/
theorem bufBit_congr {s t : State} (hm : s.mem = t.mem) (hl : s.len = t.len) : s.bufBit = t.bufBit := by
  funext j; simp only [State.bufBit, hm, hl]

/-- `MemRead` depends on BUF and LEN only (R59). -/
theorem memRead_congr {s t : State} (hm : s.mem = t.mem) (hl : s.len = t.len) : s.memRead = t.memRead := by
  funext j n; simp only [State.memRead, bufBit_congr hm hl]

@[simp] theorem advance_bufBit (n : Nat) : (s.advance n).bufBit = s.bufBit := rfl
@[simp] theorem advance_memRead (n : Nat) : (s.advance n).memRead = s.memRead := rfl
@[simp] theorem advance_zero : s.advance 0 = s := rfl

theorem advance_advance (a b : Nat) : (s.advance a).advance b = s.advance (a + b) := by
  simp only [State.advance, Nat.add_assoc]

end Sys2Proof.Machine
end

