-- ==== Sys2Proof/Laws/Segment.lean ====
section
/-! SUPPORT. The walk over the fields of a segment: what it answers when every field is good, at the first bad field, and
whatever it answers; then each field's emission, and the end of a segment. -/

namespace Sys2Proof.Machine

/-! ### The walk -/

/-- Every field good: the walk reads them all and appends what each emits. -/
theorem unpackFields_ok {w : Nat} {emit : BitVec w → Except Cause Emit} {out : BitVec w → Emit}
    {vs : List (BitVec w)} (h : ∀ v ∈ vs, emit v = .ok (out v)) (k : Work) :
    unpackFields emit vs k = .ok { used := k.used + w * vs.length,
                                   text := k.text ++ vs.flatMap (fun v => (out v).text),
                                   bytes := k.bytes ++ vs.flatMap (fun v => (out v).bytes) } := by
  induction vs generalizing k with
  | nil => simp [unpackFields]
  | cons v vs ih =>
    rw [unpackFields, h v (by simp)]
    simp only [List.flatMap_cons]
    rw [ih fun u hu => h u (by simp [hu])]
    simp only [List.length_cons, List.append_assoc, Nat.mul_succ, Except.ok.injEq, Work.mk.injEq, and_true]
    omega

/-- The first bad field ends the walk; it has been read, nothing after it has (R270, R271). -/
theorem unpackFields_error {w : Nat} {emit : BitVec w → Except Cause Emit} {pre : List (BitVec w)} {v : BitVec w}
    {c : Cause} (h : ∀ u ∈ pre, ∃ e, emit u = .ok e) (hv : emit v = .error c) (post : List (BitVec w)) (k : Work) :
    unpackFields emit (pre ++ v :: post) k = .error (c, k.used + w * (pre.length + 1)) := by
  induction pre generalizing k with
  | nil => simp [unpackFields, hv]
  | cons u pre ih =>
    obtain ⟨e, he⟩ := h u (by simp)
    rw [List.cons_append, unpackFields, he]
    simp only []
    rw [ih (fun u hu => h u (by simp [hu]))]
    simp only [List.length_cons, Except.error.injEq, Prod.mk.injEq, true_and]
    ring

/-- Whatever the walk answers: it has read no more than the fields hold, a fault comes from one of them, and a
property of emissions that appending keeps holds of the whole. -/
theorem unpackFields_inv {w : Nat} {emit : BitVec w → Except Cause Emit} {Q : List CodeUnit → List Byte → Prop}
    (happ : ∀ {t b t' b'}, Q t b → Q t' b' → Q (t ++ t') (b ++ b')) (vs : List (BitVec w))
    (hQ : ∀ v ∈ vs, ∀ e, emit v = .ok e → Q e.text e.bytes) (k : Work) (hk : Q k.text k.bytes) :
    (∃ k', unpackFields emit vs k = .ok k' ∧ k'.used = k.used + w * vs.length ∧ Q k'.text k'.bytes) ∨
    (∃ v ∈ vs, ∃ c u, emit v = .error c ∧ unpackFields emit vs k = .error (c, u) ∧
      k.used ≤ u ∧ u ≤ k.used + w * vs.length) := by
  induction vs generalizing k with
  | nil => exact .inl ⟨k, rfl, by simp, hk⟩
  | cons v vs ih =>
    rw [unpackFields]
    cases hv : emit v with
    | error c =>
      refine .inr ⟨v, by simp, c, k.used + w, hv, rfl, by omega, ?_⟩
      simp only [List.length_cons, Nat.mul_succ]; omega
    | ok e =>
      have hlen : w * (v :: vs).length = w + w * vs.length := by rw [List.length_cons, Nat.mul_succ]; omega
      rcases ih (fun u hu => hQ u (by simp [hu]))
          { used := k.used + w, text := k.text ++ e.text, bytes := k.bytes ++ e.bytes }
          (happ hk (hQ v (by simp) e hv)) with ⟨k', h, hu, hq⟩ | ⟨u, hu, c, n, he, h, h1, h2⟩
      · exact .inl ⟨k', h, by simp only [hu, hlen]; omega, hq⟩
      · exact .inr ⟨u, by simp [hu], c, n, he, h, by simp only at h1; omega, by simp only [hlen] at *; omega⟩

/-! ### Emissions -/

theorem emitGroup3_ok {g : BitVec 10} (h : g.toNat < 1000) :
    emitGroup3 g = .ok (emitDigits [g.toNat / 100, g.toNat / 10 % 10, g.toNat % 10]) := by
  simp only [emitGroup3, if_neg (Nat.not_le.2 h)]

theorem emitGroup3_error {g : BitVec 10} (h : 1000 ≤ g.toNat) : emitGroup3 g = .error .numGroup3 := by
  simp only [emitGroup3, if_pos h]

theorem emitGroup2_ok {g : BitVec 7} (h : g.toNat < 100) :
    emitGroup2 g = .ok (emitDigits [g.toNat / 10, g.toNat % 10]) := by
  simp only [emitGroup2, if_neg (Nat.not_le.2 h)]

theorem emitGroup2_error {g : BitVec 7} (h : 100 ≤ g.toNat) : emitGroup2 g = .error .numGroup2 := by
  simp only [emitGroup2, if_pos h]

theorem emitGroup1_ok {g : BitVec 4} (h : g.toNat < 10) : emitGroup1 g = .ok (emitDigits [g.toNat]) := by
  simp only [emitGroup1, if_neg (Nat.not_le.2 h)]

theorem emitGroup1_error {g : BitVec 4} (h : 10 ≤ g.toNat) : emitGroup1 g = .error .numGroup1 := by
  simp only [emitGroup1, if_pos h]

@[simp] theorem length_alphabet : alphabet.length = 45 := rfl

theorem emitIndex_ok {i : Nat} (h : i < 45) :
    emitIndex i = .ok { text := [alphabet.getD i 0], bytes := [(alphabet.getD i 0).setWidth 8] } := by
  have e : alphabet[i]? = some (alphabet.getD i 0) := by
    rw [List.getD_eq_getElem _ _ (by rw [length_alphabet]; exact h), List.getElem?_eq_getElem]
  simp only [emitIndex, e]

theorem emitIndex_error {i : Nat} (h : 45 ≤ i) : emitIndex i = .error .alnumIndex := by
  have e : alphabet[i]? = none := List.getElem?_eq_none (by rw [length_alphabet]; exact h)
  simp only [emitIndex, e]

theorem emitPair_ok {p : BitVec 11} (h : p.toNat / 45 < 45) :
    emitPair p = .ok { text := [alphabet.getD (p.toNat / 45) 0, alphabet.getD (p.toNat % 45) 0],
                       bytes := [(alphabet.getD (p.toNat / 45) 0).setWidth 8,
                                 (alphabet.getD (p.toNat % 45) 0).setWidth 8] } := by
  rw [emitPair, emitIndex_ok h, emitIndex_ok (Nat.mod_lt _ (by omega))]
  rfl

theorem emitPair_error {p : BitVec 11} (h : 45 ≤ p.toNat / 45) : emitPair p = .error .alnumIndex := by
  rw [emitPair, emitIndex_error h]

theorem emitKanji_ok {table : List (CodeUnit × CodeUnit)} {k : BitVec 13} {u : CodeUnit}
    (h : table.lookup (kanjiCode k) = some u) :
    emitKanji table k = .ok { text := [u], bytes := [(kanjiCode k >>> 8).setWidth 8, (kanjiCode k).setWidth 8] } := by
  simp only [emitKanji, h]

theorem emitKanji_error {table : List (CodeUnit × CodeUnit)} {k : BitVec 13}
    (h : table.lookup (kanjiCode k) = none) : emitKanji table k = .error .kanjiUnmapped := by
  simp only [emitKanji, h]

/-! ### What a segment's fields amount to -/

/-- The bytes of a segment are the low halves of its code units, which all satisfy `p`: so of a numeric or
alphanumeric segment (R166, R186). -/
def AsciiLike (p : CodeUnit → Prop) (t : List CodeUnit) (b : List Byte) : Prop :=
  (∀ u ∈ t, p u) ∧ b = t.map (BitVec.setWidth 8)

theorem asciiLike_append {p : CodeUnit → Prop} {t t' : List CodeUnit} {b b' : List Byte}
    (h : AsciiLike p t b) (h' : AsciiLike p t' b') : AsciiLike p (t ++ t') (b ++ b') := by
  refine ⟨fun u hu => ?_, by rw [List.map_append, ← h.2, ← h'.2]⟩
  rcases List.mem_append.1 hu with hu | hu
  · exact h.1 u hu
  · exact h'.1 u hu

/-- A decimal digit's code unit (R166). -/
def IsDigit (u : CodeUnit) : Prop := 0x30 ≤ u.toNat ∧ u.toNat ≤ 0x39

theorem asciiLike_emitDigits {ds : List Nat} (h : ∀ d ∈ ds, d < 10) :
    AsciiLike IsDigit (emitDigits ds).text (emitDigits ds).bytes := by
  refine ⟨fun u hu => ?_, ?_⟩
  · obtain ⟨d, hd, rfl⟩ := List.mem_map.1 hu
    have := h d hd
    simp only [IsDigit, BitVec.toNat_ofNat]; omega
  · simp only [emitDigits, List.map_map]
    refine List.map_congr_left fun d hd => BitVec.eq_of_toNat_eq ?_
    have := h d hd
    simp only [Function.comp, BitVec.toNat_ofNat, BitVec.toNat_setWidth]; omega

theorem asciiLike_emitGroup3 {g : BitVec 10} {e : Emit} (h : emitGroup3 g = .ok e) :
    AsciiLike IsDigit e.text e.bytes := by
  by_cases hg : g.toNat < 1000
  · rw [emitGroup3_ok hg] at h; obtain rfl := Except.ok.inj h
    exact asciiLike_emitDigits (by simp; omega)
  · rw [emitGroup3_error (by omega)] at h; cases h

theorem asciiLike_emitGroup2 {g : BitVec 7} {e : Emit} (h : emitGroup2 g = .ok e) :
    AsciiLike IsDigit e.text e.bytes := by
  by_cases hg : g.toNat < 100
  · rw [emitGroup2_ok hg] at h; obtain rfl := Except.ok.inj h
    exact asciiLike_emitDigits (by simp; omega)
  · rw [emitGroup2_error (by omega)] at h; cases h

theorem asciiLike_emitGroup1 {g : BitVec 4} {e : Emit} (h : emitGroup1 g = .ok e) :
    AsciiLike IsDigit e.text e.bytes := by
  by_cases hg : g.toNat < 10
  · rw [emitGroup1_ok hg] at h; obtain rfl := Except.ok.inj h
    exact asciiLike_emitDigits (by simp; omega)
  · rw [emitGroup1_error (by omega)] at h; cases h

theorem getD_mem_alphabet {i : Nat} (h : i < 45) : alphabet.getD i 0 ∈ alphabet := by
  rw [List.getD_eq_getElem _ _ (by rw [length_alphabet]; exact h)]; exact List.getElem_mem _

theorem asciiLike_emitPair {p : BitVec 11} {e : Emit} (h : emitPair p = .ok e) :
    AsciiLike (· ∈ alphabet) e.text e.bytes := by
  by_cases hp : p.toNat / 45 < 45
  · rw [emitPair_ok hp] at h; obtain rfl := Except.ok.inj h
    refine ⟨fun u hu => ?_, rfl⟩
    rcases List.mem_pair.1 hu with rfl | rfl
    · exact getD_mem_alphabet hp
    · exact getD_mem_alphabet (Nat.mod_lt _ (by omega))
  · rw [emitPair_error (by omega)] at h; cases h

theorem asciiLike_emitSingle {i : BitVec 6} {e : Emit} (h : emitSingle i = .ok e) :
    AsciiLike (· ∈ alphabet) e.text e.bytes := by
  by_cases hi : i.toNat < 45
  · rw [emitSingle, emitIndex_ok hi] at h; obtain rfl := Except.ok.inj h
    refine ⟨fun u hu => ?_, rfl⟩
    obtain rfl := List.mem_singleton.1 hu
    exact getD_mem_alphabet hi
  · rw [emitSingle, emitIndex_error (by omega)] at h; cases h

/-! ### The unpackers: everything each can answer -/

/-- UnpackNumeric: the whole segment, its text digits and its bytes their ASCII codes; or one of the three numeric
causes, with no more read than the segment holds. -/
theorem unpackNumeric_cases (sc : SizeClass) (d : NumData) :
    (∃ k, unpackNumeric sc d = .ok k ∧ k.used = numLength sc d ∧ AsciiLike IsDigit k.text k.bytes) ∨
    (∃ c u, unpackNumeric sc d = .error (c, u) ∧ (c = .numGroup3 ∨ c = .numGroup2 ∨ c = .numGroup1) ∧
      4 ≤ u ∧ u ≤ numLength sc d) := by
  have rest : ∀ k : Work, AsciiLike IsDigit k.text k.bytes →
      (∃ k', unpackNumRest d.rest k = .ok k' ∧ k'.used = k.used + d.rest.bits ∧ AsciiLike IsDigit k'.text k'.bytes) ∨
      (∃ c u, unpackNumRest d.rest k = .error (c, u) ∧ (c = .numGroup2 ∨ c = .numGroup1) ∧
        k.used ≤ u ∧ u ≤ k.used + d.rest.bits) := by
    intro k hk
    cases hr : d.rest with
    | none => exact .inl ⟨k, rfl, rfl, hk⟩
    | one g =>
      rcases unpackFields_inv (emit := emitGroup1) asciiLike_append [g] (fun v _ e he => asciiLike_emitGroup1 he) k hk with
        ⟨k', h, hu, hq⟩ | ⟨v, _, c, u, he, h, h1, h2⟩
      · exact .inl ⟨k', h, hu, hq⟩
      · refine .inr ⟨c, u, h, .inr ?_, h1, h2⟩
        by_cases hv : v.toNat < 10
        · rw [emitGroup1_ok hv] at he; cases he
        · rw [emitGroup1_error (by omega)] at he; exact (Except.error.inj he).symm
    | two g =>
      rcases unpackFields_inv (emit := emitGroup2) asciiLike_append [g] (fun v _ e he => asciiLike_emitGroup2 he) k hk with
        ⟨k', h, hu, hq⟩ | ⟨v, _, c, u, he, h, h1, h2⟩
      · exact .inl ⟨k', h, hu, hq⟩
      · refine .inr ⟨c, u, h, .inl ?_, h1, h2⟩
        by_cases hv : v.toNat < 100
        · rw [emitGroup2_ok hv] at he; cases he
        · rw [emitGroup2_error (by omega)] at he; exact (Except.error.inj he).symm
  have start : AsciiLike IsDigit (Work.start .num sc).text (Work.start .num sc).bytes :=
    ⟨fun u hu => absurd hu (by simp [Work.start]), rfl⟩
  rcases unpackFields_inv (emit := emitGroup3) asciiLike_append d.groups (fun v _ e he => asciiLike_emitGroup3 he) (Work.start .num sc) start
    with ⟨k, h, hu, hq⟩ | ⟨v, _, c, u, he, h, h1, h2⟩
  · rcases rest k hq with ⟨k', h', hu', hq'⟩ | ⟨c, u, h', hc, h1, h2⟩
    · refine .inl ⟨k', by simp only [unpackNumeric, h, h'], ?_, hq'⟩
      simp only [hu', hu, Work.start, numLength]
    · refine .inr ⟨c, u, by simp only [unpackNumeric, h, h'], .inr hc, ?_, ?_⟩
      · simp only [hu, Work.start] at h1; omega
      · simp only [hu, Work.start] at h2; simp only [numLength]; omega
  · refine .inr ⟨c, u, by simp only [unpackNumeric, h], .inl ?_, ?_, ?_⟩
    · by_cases hv : v.toNat < 1000
      · rw [emitGroup3_ok hv] at he; cases he
      · rw [emitGroup3_error (by omega)] at he; exact (Except.error.inj he).symm
    · simp only [Work.start] at h1; omega
    · simp only [Work.start] at h2; simp only [numLength]; omega

/-- UnpackAlphanumeric: the whole segment, its text characters of the alphabet; or ALNUM_INDEX. -/
theorem unpackAlphanumeric_cases (sc : SizeClass) (d : AlnumData) :
    (∃ k, unpackAlphanumeric sc d = .ok k ∧ k.used = alnumLength sc d ∧ AsciiLike (· ∈ alphabet) k.text k.bytes) ∨
    (∃ u, unpackAlphanumeric sc d = .error (.alnumIndex, u) ∧ 4 ≤ u ∧ u ≤ alnumLength sc d) := by
  have len : d.single.toList.length = singleCount d.single := by cases d.single <;> rfl
  have start : AsciiLike (· ∈ alphabet) (Work.start .alnum sc).text (Work.start .alnum sc).bytes :=
    ⟨fun u hu => absurd hu (by simp [Work.start]), rfl⟩
  rcases unpackFields_inv (emit := emitPair) asciiLike_append d.pairs (fun v _ e he => asciiLike_emitPair he) (Work.start .alnum sc) start
    with ⟨k, h, hu, hq⟩ | ⟨v, _, c, u, he, h, h1, h2⟩
  · rcases unpackFields_inv (emit := emitSingle) asciiLike_append d.single.toList (fun v _ e he => asciiLike_emitSingle he) k hq with
      ⟨k', h', hu', hq'⟩ | ⟨v, _, c, u, he, h', h1, h2⟩
    · refine .inl ⟨k', by simp only [unpackAlphanumeric, h, h'], ?_, hq'⟩
      simp only [hu', hu, len, Work.start, alnumLength]
    · have hc : c = .alnumIndex := by
        by_cases hv : v.toNat < 45
        · rw [emitSingle, emitIndex_ok hv] at he; cases he
        · rw [emitSingle, emitIndex_error (by omega)] at he; exact (Except.error.inj he).symm
      subst hc
      refine .inr ⟨u, by simp only [unpackAlphanumeric, h, h'], ?_, ?_⟩
      · simp only [hu, Work.start] at h1; omega
      · simp only [hu, len, Work.start] at h2; simp only [alnumLength]; omega
  · have hc : c = .alnumIndex := by
      by_cases hv : v.toNat / 45 < 45
      · rw [emitPair_ok hv] at he; cases he
      · rw [emitPair_error (by omega)] at he; exact (Except.error.inj he).symm
    subst hc
    refine .inr ⟨u, by simp only [unpackAlphanumeric, h], ?_, ?_⟩
    · simp only [Work.start] at h1; omega
    · simp only [Work.start] at h2; simp only [alnumLength]; omega

/-- UnpackByte never faults: the bytes verbatim, the text of the whole list (R200, R202, R203). -/
theorem unpackByte_eq (dec : Utf8Decoder) (sc : SizeClass) (bs : List Byte) :
    unpackByte dec sc bs = .ok { used := byteLength sc bs, text := utf8Text dec bs, bytes := bs } := by
  have h := unpackFields_ok (emit := emitByte) (out := fun b => { text := [], bytes := [b] }) (vs := bs)
    (fun _ _ => rfl) (Work.start .byte sc)
  have hb : bs.flatMap (fun b => [b]) = bs := by induction bs <;> simp_all [List.flatMap_cons]
  simp only [Work.start, List.nil_append, hb] at h
  simp only [unpackByte, Work.start, h, byteLength]

/-- UnpackKanji: the whole segment, two bytes for each code unit; or KANJI_UNMAPPED. -/
theorem unpackKanji_cases (table : List (CodeUnit × CodeUnit)) (sc : SizeClass) (ks : List (BitVec 13)) :
    (∃ k, unpackKanji table sc ks = .ok k ∧ k.used = kanjiLength sc ks ∧ k.bytes.length = 2 * k.text.length) ∨
    (∃ u, unpackKanji table sc ks = .error (.kanjiUnmapped, u) ∧ 4 ≤ u ∧ u ≤ kanjiLength sc ks) := by
  have emits : ∀ v ∈ ks, ∀ e, emitKanji table v = .ok e → e.bytes.length = 2 * e.text.length := by
    intro v _ e he
    cases hu : table.lookup (kanjiCode v) with
    | none => rw [emitKanji_error hu] at he; cases he
    | some u => rw [emitKanji_ok hu] at he; obtain rfl := Except.ok.inj he; rfl
  rcases unpackFields_inv (emit := emitKanji table) (Q := fun t b => b.length = 2 * t.length)
      (fun h h' => by simp only [List.length_append, h, h']; omega) ks emits (Work.start .kanji sc) rfl
    with ⟨k, h, hu, hq⟩ | ⟨v, _, c, u, he, h, h1, h2⟩
  · exact .inl ⟨k, h, by simp only [hu, Work.start, kanjiLength], hq⟩
  · have hc : c = .kanjiUnmapped := by
      cases hl : table.lookup (kanjiCode v) with
      | none => rw [emitKanji_error hl] at he; exact (Except.error.inj he).symm
      | some u => rw [emitKanji_ok hl] at he; cases he
    subst hc
    refine .inr ⟨u, h, ?_, ?_⟩
    · simp only [Work.start] at h1; omega
    · simp only [Work.start] at h2; simp only [kanjiLength]; omega

/-! ### The end of a segment -/

theorem closeSegment_ok {chunk : Work → Chunk} {u : Unpacked} {k : Work} (h : u = .ok k) (s : State) :
    closeSegment chunk u s = (s.advance k.used).accumulate (chunk k) k.text k.bytes := by rw [h]; rfl

theorem closeSegment_error {chunk : Work → Chunk} {u : Unpacked} {c : Cause} {n : Nat} (h : u = .error (c, n))
    (s : State) : closeSegment chunk u s = (s.advance n).raise c := by rw [h]; rfl

end Sys2Proof.Machine
end

