-- ==== Sys2Proof/Laws/Exec.lean ====
section
/-! SUPPORT. Everything an instruction can do, said once (`exec_cases`), and everything a step can do
(`sequencerStep_cases`, `step_cases`): later proofs cite these and unfold no meaning. -/

namespace Sys2Proof.Machine

/-! ### The next state of an instruction -/

/-- Which causes an instruction can raise (R265). -/
def mayRaise : Instr → Cause → Prop
  | .numSc0 _, c | .numSc1 _, c | .numSc2 _, c => c = .numGroup3 ∨ c = .numGroup2 ∨ c = .numGroup1
  | .alnumSc0 _, c | .alnumSc1 _, c | .alnumSc2 _, c => c = .alnumIndex
  | .kanjiSc0 _, c | .kanjiSc1 _, c | .kanjiSc2 _, c => c = .kanjiUnmapped
  | _, _ => False

/-- What an instruction may make of a state, by the operation of Machine/Ops.lean that makes it. -/
inductive Effect (i : Instr) (s : State) : State → Prop
  /-- A content segment is accumulated whole (R135). -/
  | content (c : Chunk) (hstream : i.isCommand = false) (hlen : 4 ≤ i.length) (hlegal : c.legal) :
      Effect i s ((s.advance i.length).accumulate c c.textOf c.bytesOf)
  /-- A fault is taken inside the segment (R266, R271). -/
  | raises (c : Cause) (u : Nat) (hstream : i.isCommand = false) (hmay : mayRaise i c) (hnone : c ≠ .none)
      (hlo : 4 ≤ u) (hhi : u ≤ i.length) : Effect i s ((s.advance u).raise c)
  /-- An ECI chunk (R136). -/
  | eci (a : Int) (hstream : i.isCommand = false) (hlen : 4 ≤ i.length) (hlegal : (Chunk.eci a).legal) :
      Effect i s ((s.advance i.length).accumulateEci a)
  /-- The terminator (R133). -/
  | ends (hterm : i = .term) : Effect i s (s.advance 4).finish
  /-- A reserved indicator (R137). -/
  | skips (hstream : i.isCommand = false) (hlen : i.length = 4) (hterm : i ≠ .term) : Effect i s (s.advance 4)
  /-- A command of the Bit Cursor (R111, R114). -/
  | answers (n v : Nat) (hcommand : i.isCommand = true) (hn : n ≤ 32) : Effect i s ((s.advance n).answer v)

theorem legal_numeric {t : List CodeUnit} {b : List Byte} (h : AsciiLike IsDigit t b) : (Chunk.numeric t).legal := h.1

theorem four_le_numLength (sc : SizeClass) (d : NumData) : 4 ≤ numLength sc d := by simp only [numLength]; omega
theorem four_le_alnumLength (sc : SizeClass) (d : AlnumData) : 4 ≤ alnumLength sc d := by simp only [alnumLength]; omega
theorem four_le_byteLength (sc : SizeClass) (bs : List Byte) : 4 ≤ byteLength sc bs := by simp only [byteLength]; omega
theorem four_le_kanjiLength (sc : SizeClass) (ks : List (BitVec 13)) : 4 ≤ kanjiLength sc ks := by
  simp only [kanjiLength]; omega

theorem effect_numeric {i : Instr} {sc : SizeClass} {d : NumData} (s : State) (hi : i.isCommand = false)
    (hl : i.length = numLength sc d) (hm : ∀ c, (c = .numGroup3 ∨ c = .numGroup2 ∨ c = .numGroup1) → mayRaise i c) :
    Effect i s (numericSegment sc d s) := by
  have h4 := four_le_numLength sc d
  rcases unpackNumeric_cases sc d with ⟨k, h, hu, hq⟩ | ⟨c, u, h, hc, h1, h2⟩
  · rw [numericSegment, closeSegment_ok h, hu, ← hl]
    have := Effect.content (s := s) (.numeric k.text) hi (by omega) hq.1
    rwa [Chunk.textOf, Chunk.bytesOf, ← hq.2] at this
  · rw [numericSegment, closeSegment_error h]
    exact .raises c u hi (hm c hc) (by rcases hc with rfl | rfl | rfl <;> decide) h1 (by omega)

theorem effect_alphanumeric {i : Instr} {sc : SizeClass} {d : AlnumData} (s : State) (hi : i.isCommand = false)
    (hl : i.length = alnumLength sc d) (hm : mayRaise i .alnumIndex) :
    Effect i s (alphanumericSegment sc d s) := by
  have h4 := four_le_alnumLength sc d
  rcases unpackAlphanumeric_cases sc d with ⟨k, h, hu, hq⟩ | ⟨u, h, h1, h2⟩
  · rw [alphanumericSegment, closeSegment_ok h, hu, ← hl]
    have := Effect.content (s := s) (.alphanumeric k.text) hi (by omega) hq.1
    rwa [Chunk.textOf, Chunk.bytesOf, ← hq.2] at this
  · rw [alphanumericSegment, closeSegment_error h]
    exact .raises _ u hi hm (by decide) h1 (by omega)

theorem effect_byte {i : Instr} {sc : SizeClass} {bs : List Byte} (s : State) (hi : i.isCommand = false)
    (hl : i.length = byteLength sc bs) : Effect i s (byteSegment sc bs s) := by
  have h4 := four_le_byteLength sc bs
  rw [byteSegment, closeSegment_ok (unpackByte_eq s.utf8 sc bs)]
  simp only [← hl]
  exact Effect.content (.byte bs (utf8Text s.utf8 bs)) hi (by omega) trivial

theorem effect_kanji {i : Instr} {sc : SizeClass} {ks : List (BitVec 13)} (s : State) (hi : i.isCommand = false)
    (hl : i.length = kanjiLength sc ks) (hm : mayRaise i .kanjiUnmapped) :
    Effect i s (kanjiSegment sc ks s) := by
  have h4 := four_le_kanjiLength sc ks
  rcases unpackKanji_cases s.sjis sc ks with ⟨k, h, hu, hq⟩ | ⟨u, h, h1, h2⟩
  · rw [kanjiSegment, closeSegment_ok h, hu, ← hl]
    exact Effect.content (.kanji k.bytes k.text) hi (by omega) hq
  · rw [kanjiSegment, closeSegment_error h]
    exact .raises _ u hi hm (by decide) h1 (by omega)

theorem effect_eci {i : Instr} {a : Int} (s : State) (hi : i.isCommand = false) (h4 : 4 ≤ i.length)
    (ha : a = -1 ∨ (0 ≤ a ∧ a < 2 ^ 21)) : Effect i s (eciSegment i.length a s) := .eci a hi h4 ha

/-- Everything an instruction can do. -/
theorem exec_cases {i : Instr} {s t : State} (h : exec i s = .next t) : Effect i s t := by
  cases i with
  | numSc0 d => obtain rfl := Host.Outcome.next.inj h; exact effect_numeric s rfl rfl fun _ hc => hc
  | numSc1 d => obtain rfl := Host.Outcome.next.inj h; exact effect_numeric s rfl rfl fun _ hc => hc
  | numSc2 d => obtain rfl := Host.Outcome.next.inj h; exact effect_numeric s rfl rfl fun _ hc => hc
  | alnumSc0 d => obtain rfl := Host.Outcome.next.inj h; exact effect_alphanumeric s rfl rfl rfl
  | alnumSc1 d => obtain rfl := Host.Outcome.next.inj h; exact effect_alphanumeric s rfl rfl rfl
  | alnumSc2 d => obtain rfl := Host.Outcome.next.inj h; exact effect_alphanumeric s rfl rfl rfl
  | byteSc0 bs => obtain rfl := Host.Outcome.next.inj h; exact effect_byte s rfl rfl
  | byteSc1 bs => obtain rfl := Host.Outcome.next.inj h; exact effect_byte s rfl rfl
  | byteSc2 bs => obtain rfl := Host.Outcome.next.inj h; exact effect_byte s rfl rfl
  | kanjiSc0 ks => obtain rfl := Host.Outcome.next.inj h; exact effect_kanji s rfl rfl rfl
  | kanjiSc1 ks => obtain rfl := Host.Outcome.next.inj h; exact effect_kanji s rfl rfl rfl
  | kanjiSc2 ks => obtain rfl := Host.Outcome.next.inj h; exact effect_kanji s rfl rfl rfl
  | eci7 v =>
    obtain rfl := Host.Outcome.next.inj h
    exact effect_eci (i := .eci7 v) s rfl (by rw [Instr.length]; omega) (.inr ⟨by omega, by have := v.isLt; omega⟩)
  | eci14 v =>
    obtain rfl := Host.Outcome.next.inj h
    exact effect_eci (i := .eci14 v) s rfl (by rw [Instr.length]; omega) (.inr ⟨by omega, by have := v.isLt; omega⟩)
  | eci21 v =>
    obtain rfl := Host.Outcome.next.inj h
    exact effect_eci (i := .eci21 v) s rfl (by rw [Instr.length]; omega) (.inr ⟨by omega, by have := v.isLt; omega⟩)
  | eciBad => obtain rfl := Host.Outcome.next.inj h; exact effect_eci (i := .eciBad) s rfl (by decide) (.inl rfl)
  | term => obtain rfl := Host.Outcome.next.inj h; exact .ends rfl
  | rsvd3 => obtain rfl := Host.Outcome.next.inj h; exact .skips rfl rfl (by decide)
  | rsvd5 => obtain rfl := Host.Outcome.next.inj h; exact .skips rfl rfl (by decide)
  | rsvd6 => obtain rfl := Host.Outcome.next.inj h; exact .skips rfl rfl (by decide)
  | rsvd9 => obtain rfl := Host.Outcome.next.inj h; exact .skips rfl rfl (by decide)
  | rsvd10 => obtain rfl := Host.Outcome.next.inj h; exact .skips rfl rfl (by decide)
  | rsvd11 => obtain rfl := Host.Outcome.next.inj h; exact .skips rfl rfl (by decide)
  | rsvd12 => obtain rfl := Host.Outcome.next.inj h; exact .skips rfl rfl (by decide)
  | rsvd13 => obtain rfl := Host.Outcome.next.inj h; exact .skips rfl rfl (by decide)
  | rsvd14 => obtain rfl := Host.Outcome.next.inj h; exact .skips rfl rfl (by decide)
  | rsvd15 => obtain rfl := Host.Outcome.next.inj h; exact .skips rfl rfl (by decide)
  | bcRead n =>
    by_cases hn : n.toNat ≤ 32
    · simp only [exec, execBcRead, if_pos hn] at h
      obtain rfl := Host.Outcome.next.inj h
      exact .answers n.toNat _ rfl hn
    · simp only [exec, execBcRead, if_neg hn] at h; cases h
  | bcAvail => obtain rfl := Host.Outcome.next.inj h; exact .answers 0 s.available rfl (by omega)

/-- A segment always answers a next state; only a cursor read that is too wide is refused (R115). -/
theorem exec_segment_next {i : Instr} (hi : i.isCommand = false) (s : State) : ∃ t, exec i s = .next t := by
  cases i <;> first | exact ⟨_, rfl⟩ | cases hi

/-! ### The meanings by size class, and what every segment keeps -/

theorem exec_numInstr (sc : SizeClass) (d : NumData) (s : State) : exec (numInstr sc d) s = .next (numericSegment sc d s) := by
  cases sc <;> rfl

theorem exec_alnumInstr (sc : SizeClass) (d : AlnumData) (s : State) :
    exec (alnumInstr sc d) s = .next (alphanumericSegment sc d s) := by cases sc <;> rfl

theorem exec_byteInstr (sc : SizeClass) (bs : List Byte) (s : State) :
    exec (byteInstr sc bs) s = .next (byteSegment sc bs s) := by cases sc <;> rfl

theorem exec_kanjiInstr (sc : SizeClass) (ks : List (BitVec 13)) (s : State) :
    exec (kanjiInstr sc ks) s = .next (kanjiSegment sc ks s) := by cases sc <;> rfl

/-- A segment moves OFFSET by at least its indicator and at most its length. -/
theorem exec_segment_offset {i : Instr} {s t : State} (hi : i.isCommand = false) (h : exec i s = .next t) :
    s.offset + 4 ≤ t.offset ∧ t.offset ≤ s.offset + i.length := by
  cases exec_cases h with
  | content c _ hl => exact ⟨Nat.add_le_add_left hl _, Nat.le_refl _⟩
  | raises c u _ _ _ h1 h2 => exact ⟨Nat.add_le_add_left h1 _, Nat.add_le_add_left h2 _⟩
  | eci a _ hl => exact ⟨Nat.add_le_add_left hl _, Nat.le_refl _⟩
  | ends ht => subst ht; exact ⟨Nat.le_refl _, Nat.le_refl _⟩
  | skips _ hl => rw [hl]; exact ⟨Nat.le_refl _, Nat.le_refl _⟩
  | answers _ _ hc => rw [hi] at hc; cases hc

/-! ### A step -/

theorem fetch_of_sizeClass {s : State} {sc : SizeClass} (h : sizeClass s.version = some sc) :
    s.fetch = .ok (decodeSegment sc s.bufBit s.offset) := by simp only [State.fetch, decodeStream, h]

/-- A segment step, or the tail check (R131, R132). -/
theorem sequencerStep_cases {s t : State} (h : sequencerStep s = .next t) :
    ∃ sc, sizeClass s.version = some sc ∧
      ((4 ≤ s.available ∧ exec (decodeSegment sc s.bufBit s.offset) s = .next t) ∨
       (s.available < 4 ∧ t = tailCheck s)) := by
  cases hsc : sizeClass s.version with
  | none => simp only [sequencerStep, State.fetch, decodeStream, hsc] at h; cases h
  | some sc =>
    simp only [sequencerStep, fetch_of_sizeClass hsc] at h
    split at h
    · exact ⟨sc, rfl, .inl ⟨‹_›, h⟩⟩
    · exact ⟨sc, rfl, .inr ⟨by omega, (Host.Outcome.next.inj h).symm⟩⟩

/-- The three ends of the tail check (R138, R139). -/
theorem tailCheck_cases (s : State) :
    (s.available = 0 ∧ tailCheck s = s.finish) ∨
    (0 < s.available ∧ s.memRead s.offset s.available = 0 ∧ tailCheck s = (s.advance s.available).finish) ∨
    (0 < s.available ∧ s.memRead s.offset s.available ≠ 0 ∧
      tailCheck s = (s.advance s.available).raise .unterminated) := by
  by_cases h0 : s.available = 0
  · exact .inl ⟨h0, by simp only [tailCheck, if_pos h0]⟩
  · by_cases hv : s.memRead s.offset s.available = 0
    · exact .inr (.inl ⟨by omega, hv, by rw [tailCheck, if_neg h0]; exact if_pos hv⟩)
    · exact .inr (.inr ⟨by omega, hv, by rw [tailCheck, if_neg h0]; exact if_neg hv⟩)

/-- With no command of the host pending, a step in RUN is a step of the sequencer. -/
theorem step_eq_sequencerStep {s : State} (hp : s.pending = none) (hr : s.status = .run) : step s = sequencerStep s := by
  simp only [step, hp, if_pos hr]

/-- With at least 4 bits left it is the segment at OFFSET (R132). -/
theorem step_eq_exec {s : State} {sc : SizeClass} (hp : s.pending = none) (hr : s.status = .run)
    (hv : sizeClass s.version = some sc) (ha : 4 ≤ s.available) :
    step s = exec (decodeSegment sc s.bufBit s.offset) s := by
  rw [step_eq_sequencerStep hp hr]; simp only [sequencerStep, fetch_of_sizeClass hv, if_pos ha]

/-- With fewer it is the tail check (R132). -/
theorem step_eq_tailCheck {s : State} {sc : SizeClass} (hp : s.pending = none) (hr : s.status = .run)
    (hv : sizeClass s.version = some sc) (ha : s.available < 4) : step s = .next (tailCheck s) := by
  rw [step_eq_sequencerStep hp hr]; simp only [sequencerStep, fetch_of_sizeClass hv, if_neg (Nat.not_le.2 ha)]

/-- Everything a step can do: a step of the sequencer while STATUS = RUN, or the host's command. -/
theorem step_cases {s t : State} (h : step s = .next t) :
    (s.pending = none ∧ s.status = .run ∧ sequencerStep s = .next t) ∨
    (∃ c, s.pending = some c ∧ hostStep c { s with pending := none } = .next t) := by
  unfold step at h
  cases hp : s.pending with
  | none =>
    simp only [hp] at h
    split at h
    · exact .inl ⟨rfl, ‹_›, h⟩
    · cases h
  | some c => simp only [hp] at h; exact .inr ⟨c, rfl, h⟩

/-- While a decode runs the host's commands do nothing: each is refused (R5, R38, R305, R307). -/
theorem hostStep_run {s : State} (hr : s.status = .run) (c : HostCmd) : ∃ r, hostStep c s = .refused r := by
  cases c <;> exact ⟨_, if_pos hr⟩

/-- Everything the host's commands can do. -/
theorem hostStep_cases {c : HostCmd} {s t : State} (h : hostStep c s = .next t) :
    (c = .start ∧ s.status ≠ .run ∧ sizeClass s.version ≠ none ∧ t = s.launch) ∨
    (∃ buf v, c = .load buf v ∧ s.status ≠ .run ∧
      t = { s with mem := Memory.ofBytes buf, len := buf.length, version := v }) ∨
    (∃ tab dec, c = .configure tab dec ∧ s.status ≠ .run ∧ t = { s with sjis := tab, utf8 := dec }) ∨
    (∃ w n v, c = .cursor w ∧ s.status ≠ .run ∧ n ≤ 32 ∧ t = (s.advance n).answer v) := by
  cases c with
  | start =>
    simp only [hostStep, hostStart] at h
    split at h
    · cases h
    · cases hsc : sizeClass s.version with
      | none => simp only [hsc] at h; cases h
      | some sc =>
        simp only [hsc] at h
        exact .inl ⟨rfl, ‹_›, by simp, (Host.Outcome.next.inj h).symm⟩
  | load buf v =>
    simp only [hostStep, hostLoad] at h
    split at h
    · cases h
    · exact .inr (.inl ⟨buf, v, rfl, ‹_›, (Host.Outcome.next.inj h).symm⟩)
  | configure tab dec =>
    simp only [hostStep, hostConfigure] at h
    split at h
    · cases h
    · exact .inr (.inr (.inl ⟨tab, dec, rfl, ‹_›, (Host.Outcome.next.inj h).symm⟩))
  | cursor w =>
    refine .inr (.inr (.inr ?_))
    simp only [hostStep, hostCursor] at h
    split at h
    · cases h
    rename_i hr
    have command : ∀ i, decodeCommand w = .ok i → i.isCommand = true := by
      intro i hi
      simp only [decodeCommand] at hi
      split at hi
      · cases hi; rfl
      · split at hi
        · cases hi; rfl
        · cases hi
    cases hd : decodeCommand w with
    | error e => simp only [hd] at h; cases h
    | ok i =>
      simp only [hd] at h
      have hc := command i hd
      cases exec_cases h with
      | answers n v _ hn => exact ⟨w, n, v, rfl, hr, hn, rfl⟩
      | content _ hs | raises _ _ hs | eci _ hs | skips hs => rw [hc] at hs; cases hs
      | ends ht => rw [ht] at hc; cases hc

/-! ### A run -/

@[simp] theorem run_zero (s : State) : run 0 s = .next s := rfl

theorem run_succ {k : Nat} {s t : State} (h : step s = .next t) : run (k + 1) s = run k t := by rw [run, h]

/-- A run that ends in a next state begins with a step that does. -/
theorem run_succ_cases {k : Nat} {s u : State} (h : run (k + 1) s = .next u) : ∃ t, step s = .next t ∧ run k t = .next u := by
  rw [run] at h
  split at h
  · exact ⟨_, ‹_›, h⟩
  · cases h
  · cases h

/-- One step of the host's run, whatever the machine. -/
theorem core_run_succ (M : Host.Core) (k : Nat) (s : M.State) :
    (∀ t, M.step s = .next t → M.run (k + 1) s = M.run k t) ∧
    (∀ r, M.step s = .fault r → M.run (k + 1) s = .fault r) ∧
    (∀ r, M.step s = .refused r → M.run (k + 1) s = .refused r) :=
  ⟨fun t h => by rw [Host.Core.run, h], fun r h => by rw [Host.Core.run, h], fun r h => by rw [Host.Core.run, h]⟩

/-- `run` is the host's run of the machine. -/
theorem run_eq_core (k : Nat) (s : State) : Host.Core.run Sys2Proof.core k s = run k s := by
  induction k generalizing s with
  | zero => rfl
  | succ k ih =>
    obtain ⟨hn, hf, hr⟩ := core_run_succ Sys2Proof.core k s
    rw [run]
    cases h : step s with
    | next t => exact (hn t h).trans (ih t)
    | fault r => exact hf r h
    | refused r => exact hr r h

end Sys2Proof.Machine
end

