-- ==== Sys2Proof/Laws/Memory.lean ====
section
/-! SUPPORT. The memory that holds BUF: read after write, and that every operation keeps the canonical form. -/

namespace Sys2Proof.Machine

theorem Memory.wfFrom_mono {m : Memory} {x y : Nat} (h : y ≤ x) (hm : Memory.wfFrom x m = true) :
    Memory.wfFrom y m = true := by
  cases m with
  | nil => rfl
  | cons c m =>
    obtain ⟨p, q⟩ := c
    simp only [Memory.wfFrom, Bool.and_eq_true, decide_eq_true_eq] at *
    exact ⟨⟨by omega, hm.1.2⟩, hm.2⟩

/-- Below its first address a canonical memory reads as unlisted. -/
theorem Memory.read_below {m : Memory} {x a : Nat} (hm : Memory.wfFrom x m = true) (ha : a < x) :
    Memory.read m a = Memory.unlisted := by
  induction m generalizing x with
  | nil => rfl
  | cons c m ih =>
    simp only [Memory.wfFrom, Bool.and_eq_true, decide_eq_true_eq] at hm
    rw [Memory.read, if_neg (by omega)]
    exact ih hm.2 (by omega)

/-- A byte just written reads back; every other address reads as before. -/
theorem Memory.read_write {m : Memory} {x : Nat} (hm : Memory.wfFrom x m = true) (y : Nat) (b : Byte) (a : Nat) :
    Memory.read (Memory.write m y b) a = if a = y then b else Memory.read m a := by
  have one : ∀ (r : Memory), Memory.read ((y, b) :: r) a = if a = y then b else Memory.read r a := by
    intro r
    by_cases ha : a = y
    · rw [if_pos ha, Memory.read, if_pos ha.symm]
    · rw [if_neg ha, Memory.read, if_neg (Ne.symm ha)]
  induction m generalizing x with
  | nil =>
    rw [Memory.write]
    split
    · rename_i hb
      split
      · exact hb.symm
      · rfl
    · exact one []
  | cons c m ih =>
    obtain ⟨p, q⟩ := c
    simp only [Memory.wfFrom, Bool.and_eq_true, decide_eq_true_eq] at hm
    have below : a ≤ p → Memory.read m a = Memory.unlisted := fun h => Memory.read_below hm.2 (by omega)
    rw [Memory.write]
    split
    · split
      · rename_i hlt hb
        split
        · rename_i ha
          rw [hb, Memory.read, if_neg (by omega), below (by omega)]
        · rfl
      · exact one _
    · split
      · rename_i hlt heq
        subst heq
        split
        · rename_i hb
          by_cases ha : a = y
          · rw [if_pos ha, hb, below (by omega)]
          · rw [if_neg ha, Memory.read, if_neg (Ne.symm ha)]
        · rw [one, Memory.read]
          by_cases ha : a = y
          · rw [if_pos ha, if_pos ha]
          · rw [if_neg ha, if_neg ha, if_neg (Ne.symm ha)]
      · rename_i h1 h2
        rw [Memory.read, Memory.read, ih hm.2]
        by_cases hp : p = a
        · rw [if_pos hp, if_pos hp, if_neg (by omega)]
        · rw [if_neg hp, if_neg hp]

/-- A write keeps the canonical form. -/
theorem Memory.wfFrom_write {m : Memory} {x : Nat} (hm : Memory.wfFrom x m = true) {y : Nat} (hy : x ≤ y) (b : Byte) :
    Memory.wfFrom x (Memory.write m y b) = true := by
  induction m generalizing x with
  | nil => by_cases hb : b = Memory.unlisted <;> simp_all [Memory.write, Memory.wfFrom]
  | cons c m ih =>
    obtain ⟨p, q⟩ := c
    have hm' := hm
    simp only [Memory.wfFrom, Bool.and_eq_true, decide_eq_true_eq] at hm
    rw [Memory.write]
    split
    · split
      · exact hm'
      · rename_i hlt hb
        simp only [Memory.wfFrom, Bool.and_eq_true, decide_eq_true_eq]
        exact ⟨⟨hy, hb⟩, ⟨by omega, hm.1.2⟩, hm.2⟩
    · split
      · rename_i heq
        subst heq
        split
        · exact Memory.wfFrom_mono (by omega) hm.2
        · rename_i hb
          simp only [Memory.wfFrom, Bool.and_eq_true, decide_eq_true_eq]
          exact ⟨⟨hy, hb⟩, hm.2⟩
      · simp only [Memory.wfFrom, Bool.and_eq_true, decide_eq_true_eq]
        exact ⟨hm.1, ih hm.2 (by omega)⟩

theorem Memory.wf_write {m : Memory} (hm : Memory.wf m = true) (y : Nat) (b : Byte) :
    Memory.wf (Memory.write m y b) = true := Memory.wfFrom_write hm (Nat.zero_le y) b

theorem Memory.wf_writeList {m : Memory} (hm : Memory.wf m = true) (y : Nat) (bs : List Byte) :
    Memory.wf (Memory.writeList m y bs) = true := by
  induction bs generalizing m y with
  | nil => exact hm
  | cons b bs ih => exact ih (Memory.wf_write hm y b) (y + 1)

theorem Memory.wf_ofBytes (buf : List Byte) : Memory.wf (Memory.ofBytes buf) = true :=
  Memory.wf_writeList rfl 0 buf

theorem Memory.wfFrom_below {m : Memory} {x : Nat} (hm : Memory.wfFrom x m = true) (y : Nat) :
    Memory.wfFrom x (Memory.below m y) = true := by
  induction m generalizing x with
  | nil => rfl
  | cons c m ih =>
    simp only [Memory.wfFrom, Bool.and_eq_true, decide_eq_true_eq] at hm
    rw [Memory.below, List.filter_cons]
    split
    · simp only [Memory.wfFrom, Bool.and_eq_true, decide_eq_true_eq]
      exact ⟨hm.1, ih hm.2⟩
    · exact Memory.wfFrom_mono (by omega) (ih hm.2)

/-- The addresses a write leaves listed. -/
theorem Memory.mem_write {m : Memory} {y : Nat} {b : Byte} {c : Host.Cell} (h : c ∈ Memory.write m y b) :
    c = (y, b) ∨ c ∈ m := by
  induction m with
  | nil =>
    rw [Memory.write] at h
    split at h <;> simp_all
  | cons d m ih =>
    obtain ⟨p, q⟩ := d
    rw [Memory.write] at h
    split at h
    · split at h <;> simp_all
    · split at h
      · split at h
        · simp [h]
        · rcases List.mem_cons.1 h with h | h <;> simp [h]
      · rcases List.mem_cons.1 h with h | h
        · simp [h]
        · rcases ih h with h | h <;> simp [h]

theorem Memory.mem_writeList {m : Memory} {y : Nat} {bs : List Byte} {c : Host.Cell}
    (h : c ∈ Memory.writeList m y bs) : c ∈ m ∨ c.1 < y + bs.length := by
  induction bs generalizing m y with
  | nil => exact .inl h
  | cons b bs ih =>
    rcases ih h with h | h
    · rcases Memory.mem_write h with rfl | h
      · right; simp
      · exact .inl h
    · right; simp only [List.length_cons]; omega

/-- A loaded buffer lists addresses inside the buffer only. -/
theorem Memory.mem_ofBytes {buf : List Byte} {c : Host.Cell} (h : c ∈ Memory.ofBytes buf) : c.1 < buf.length := by
  simpa using (Memory.mem_writeList h).resolve_left (by simp)

/-- A loaded list of bytes reads back, byte by byte. -/
theorem Memory.read_writeList {m : Memory} (hm : Memory.wf m = true) (y : Nat) (bs : List Byte) (a : Nat) :
    Memory.read (Memory.writeList m y bs) a =
      if y ≤ a ∧ a < y + bs.length then bs.getD (a - y) 0 else Memory.read m a := by
  induction bs generalizing m y with
  | nil => rw [if_neg (by simp only [List.length_nil]; omega)]; rfl
  | cons b bs ih =>
    rw [Memory.writeList, ih (Memory.wf_write hm y b), Memory.read_write hm]
    by_cases h0 : a = y
    · subst h0
      rw [if_neg (by omega), if_pos rfl, if_pos (by simp only [List.length_cons]; omega)]
      simp
    · by_cases h1 : y + 1 ≤ a ∧ a < y + 1 + bs.length
      · rw [if_pos h1, if_pos (by simp only [List.length_cons]; omega)]
        obtain ⟨k, rfl⟩ : ∃ k, a = y + 1 + k := ⟨a - (y + 1), by omega⟩
        rw [show y + 1 + k - (y + 1) = k by omega, show y + 1 + k - y = k + 1 by omega, List.getD_cons_succ]
      · rw [if_neg h1, if_neg h0, if_neg (by simp only [List.length_cons]; omega)]

end Sys2Proof.Machine
end

