-- ==== Sys2Proof/Laws/PerInstr.lean ====
section
/-! SUPPORT. Statements made of every instruction, one lemma for each constructor. `EncodeLength`: the encoder writes as many bits as
the length table of the spec says (R91, and the 7 bits of R97). -/

namespace Sys2Proof.Laws.EncodeLength

/-- The encoding of an instruction has the length R91 gives it. -/
def Statement (i : Instr) : Prop := (encode i).length = i.length

theorem encodeNum_length (sc : SizeClass) (d : NumData) : (encodeNum sc d).length = numLength sc d := by
  simp only [encodeNum, List.length_append, List.length_cons, List.length_nil, length_bitsOf, length_fieldBits,
    length_restEncode, numLength]

theorem encodeAlnum_length (sc : SizeClass) (d : AlnumData) : (encodeAlnum sc d).length = alnumLength sc d := by
  simp only [encodeAlnum, List.length_append, List.length_cons, List.length_nil, length_bitsOf, length_fieldBits,
    length_singleBits, alnumLength]

theorem encodeByte_length (sc : SizeClass) (bs : List Byte) : (encodeByte sc bs).length = byteLength sc bs := by
  simp only [encodeByte, List.length_append, List.length_cons, List.length_nil, length_bitsOf, length_fieldBits, byteLength]

theorem encodeKanji_length (sc : SizeClass) (ks : List (BitVec 13)) : (encodeKanji sc ks).length = kanjiLength sc ks := by
  simp only [encodeKanji, List.length_append, List.length_cons, List.length_nil, length_bitsOf, length_fieldBits, kanjiLength]

theorem numSc0 (d : NumData) : Statement (.numSc0 d) := encodeNum_length .sc0 d
theorem numSc1 (d : NumData) : Statement (.numSc1 d) := encodeNum_length .sc1 d
theorem numSc2 (d : NumData) : Statement (.numSc2 d) := encodeNum_length .sc2 d
theorem alnumSc0 (d : AlnumData) : Statement (.alnumSc0 d) := encodeAlnum_length .sc0 d
theorem alnumSc1 (d : AlnumData) : Statement (.alnumSc1 d) := encodeAlnum_length .sc1 d
theorem alnumSc2 (d : AlnumData) : Statement (.alnumSc2 d) := encodeAlnum_length .sc2 d
theorem byteSc0 (bs : List Byte) : Statement (.byteSc0 bs) := encodeByte_length .sc0 bs
theorem byteSc1 (bs : List Byte) : Statement (.byteSc1 bs) := encodeByte_length .sc1 bs
theorem byteSc2 (bs : List Byte) : Statement (.byteSc2 bs) := encodeByte_length .sc2 bs
theorem kanjiSc0 (ks : List (BitVec 13)) : Statement (.kanjiSc0 ks) := encodeKanji_length .sc0 ks
theorem kanjiSc1 (ks : List (BitVec 13)) : Statement (.kanjiSc1 ks) := encodeKanji_length .sc1 ks
theorem kanjiSc2 (ks : List (BitVec 13)) : Statement (.kanjiSc2 ks) := encodeKanji_length .sc2 ks
theorem eci7 (v : BitVec 7) : Statement (.eci7 v) := by simp [Statement, encode, Instr.length]
theorem eci14 (v : BitVec 14) : Statement (.eci14 v) := by simp [Statement, encode, Instr.length]
theorem eci21 (v : BitVec 21) : Statement (.eci21 v) := by simp [Statement, encode, Instr.length]
theorem eciBad : Statement .eciBad := rfl
theorem term : Statement .term := rfl
theorem rsvd3 : Statement .rsvd3 := rfl
theorem rsvd5 : Statement .rsvd5 := rfl
theorem rsvd6 : Statement .rsvd6 := rfl
theorem rsvd9 : Statement .rsvd9 := rfl
theorem rsvd10 : Statement .rsvd10 := rfl
theorem rsvd11 : Statement .rsvd11 := rfl
theorem rsvd12 : Statement .rsvd12 := rfl
theorem rsvd13 : Statement .rsvd13 := rfl
theorem rsvd14 : Statement .rsvd14 := rfl
theorem rsvd15 : Statement .rsvd15 := rfl
theorem bcRead (n : BitVec 6) : Statement (.bcRead n) := by simp [Statement, encode, Instr.length]
theorem bcAvail : Statement .bcAvail := rfl

end Sys2Proof.Laws.EncodeLength
end

