-- ==== Sys2Proof/Laws/Rtl.lean ====
section
/-! SUPPORT. The register-level machine of Machine/Rtl.lean: what its reads answer, and that each of its loops does what the
walk over decoded fields does (`Agrees`). -/

namespace Sys2Proof.Machine

/-! ### ReadBits -/

/-- `n` shifts move OFFSET by `n`, write ACC only, and shift the next `n` bits into it (R112). -/
theorem rtl_shifts_spec (n : Nat) (m : Rtl) : (Rtl.shifts n m).arch = m.arch.advance n ∧
    (Rtl.shifts n m).work = { m.work with acc := (Rtl.shifts n m).work.acc } ∧
    (Rtl.shifts n m).work.acc.toNat = (m.work.acc.toNat * 2^n + m.arch.memRead m.arch.offset n) % 2^32 := by
  induction n generalizing m with
  | zero => simp [Rtl.shifts, State.memRead, readNat]; have := m.work.acc.isLt; omega
  | succ n ih =>
    obtain ⟨h1, h2, h3⟩ := ih m.shift
    refine ⟨?_, ?_, ?_⟩
    · rw [Rtl.shifts, h1]; simp [Rtl.shift, advance_advance, Nat.add_comm]
    · rw [Rtl.shifts, h2]; simp [Rtl.shift]
    · rw [Rtl.shifts, h3]
      have e := readNat_add m.arch.bufBit m.arch.offset 1 n
      have b : (m.shift.work.acc).toNat = (2 * m.work.acc.toNat + (m.arch.bufBit m.arch.offset).toNat) % 2^32 := by
        simp only [Rtl.shift, BitVec.toNat_or, BitVec.toNat_shiftLeft]
        have : ∀ x : Nat, ∀ b : Bool,
            (x <<< 1 % 2^32) ||| (if b then (1 : BitVec 32) else 0).toNat = (2 * x + b.toNat) % 2^32 := by
          intro x b
          rw [show x <<< 1 % 2^32 = 2 * (x % 2^31) by rw [Nat.shiftLeft_eq]; omega]
          cases b
          · simp; omega
          · simp only [if_true]
            rw [show (BitVec.toNat (1:BitVec 32)) = 1 from rfl]
            have := Nat.two_pow_add_eq_or_of_lt (i := 1) (b := 1) (by omega) (x % 2^31)
            simp only [pow_one] at this
            rw [← this]; simp; omega
        exact this _ _
      rw [b]
      simp only [Rtl.shift, advance_memRead, advance_offset]
      rw [Nat.add_comm n 1]
      simp only [State.memRead] at *
      rw [e]
      have r1 : readNat m.arch.bufBit m.arch.offset 1 = (m.arch.bufBit m.arch.offset).toNat := by simp [readNat]
      rw [r1, Nat.pow_add]
      conv_lhs => rw [Nat.add_mod, Nat.mod_mul_mod]
      rw [← Nat.add_mod]
      congr 1
      ring

/-- What a ReadBits of at most 32 bits leaves (R111, R112). -/
theorem rtl_readBits_eq (m : Rtl) (n : Nat) (hn : n ≤ 32) :
    ∃ a : BitVec 32, m.readBits n = ⟨m.arch.advance n, { m.work with acc := a }⟩ ∧
      a.toNat = readNat m.arch.bufBit m.arch.offset n := by
  obtain ⟨h1, h2, h3⟩ := rtl_shifts_spec n { m with work := { m.work with acc := 0 } }
  refine ⟨(m.readBits n).work.acc, ?_, ?_⟩
  · have e : m.readBits n = ⟨(m.readBits n).arch, (m.readBits n).work⟩ := rfl
    rw [e]
    simp only [Rtl.readBits]
    rw [h1, h2]
  · have hlt : readNat m.arch.bufBit m.arch.offset n < 2 ^ 32 :=
      Nat.lt_of_lt_of_le (readNat_lt _ _ _) (Nat.pow_le_pow_right (by omega) hn)
    simp only [Rtl.readBits]
    rw [h3]
    simp only [State.memRead, show (0 : BitVec 32).toNat = 0 from rfl, Nat.zero_mul, Nat.zero_add]
    exact Nat.mod_eq_of_lt hlt

/-! ### Agreement with the walk over fields -/

/-- The registers hold what the walk has so far, `k` bits of segment read from `s0` on. -/
structure Rtl.Holds (s0 : State) (sc : BitVec 2) (m : Rtl) (k : Work) : Prop where
  arch : m.arch = s0.advance k.used
  text : m.work.segText = k.text
  bytes : m.work.segBytes = k.bytes
  scr : m.work.scr = sc

/-- The registers end as the walk ends; on a whole segment the property `P` of the registers holds too. -/
def Rtl.Agrees (s0 : State) (sc : BitVec 2) (P : Rtl → Prop) (r : Except Rtl Rtl) (u : Unpacked) : Prop :=
  match u with
  | .ok k => ∃ m, r = .ok m ∧ Rtl.Holds s0 sc m k ∧ P m
  | .error (c, n) => ∃ m, r = .error m ∧ m.arch = (s0.advance n).raise c ∧ m.work.scr = sc

/-- A walk that ends well has read all its fields. -/
theorem unpackFields_used {w : Nat} {emit : BitVec w → Except Cause Emit} {vs : List (BitVec w)} {k k' : Work}
    (h : unpackFields emit vs k = .ok k') : k'.used = k.used + w * vs.length := by
  rcases unpackFields_inv (emit := emit) (Q := fun _ _ => True) (fun _ _ => trivial) vs (fun _ _ _ _ => trivial) k trivial with
    ⟨k1, h1, h2, _⟩ | ⟨_, _, _, _, _, h1, _⟩
  · rw [h] at h1; cases h1; exact h2
  · rw [h] at h1; cases h1

/-- The low byte of a digit character is its ASCII byte (R166). -/
theorem digit_setWidth (d : Nat) : (BitVec.ofNat 16 (0x30 + d)).setWidth 8 = BitVec.ofNat 8 (0x30 + d) := by
  refine BitVec.eq_of_toNat_eq ?_; simp only [BitVec.toNat_setWidth, BitVec.toNat_ofNat]; omega

/-- The loop of R162 is the walk over the 10-bit groups; what is left of COUNT is the remainder. -/
theorem rtl_numericLoop_agrees (s0 : State) (sc : BitVec 2) (fuel : Nat) :
    ∀ (m : Rtl) (k : Work), Rtl.Holds s0 sc m k → m.work.count.toNat / 3 ≤ fuel →
    Rtl.Agrees s0 sc (fun m' => m'.work.count.toNat = m.work.count.toNat % 3) (Rtl.numericLoop fuel m)
      (unpackFields emitGroup3 (fields s0.bufBit 10 (m.work.count.toNat / 3) (s0.offset + k.used)) k) := by
  induction fuel with
  | zero =>
    intro m k h hc
    rw [show m.work.count.toNat / 3 = 0 by omega]
    exact ⟨m, rfl, h, by omega⟩
  | succ f ih =>
    intro m k h hc
    by_cases h3 : 3 ≤ m.work.count.toNat
    · obtain ⟨q, hq⟩ : ∃ q, m.work.count.toNat / 3 = q + 1 := ⟨m.work.count.toNat / 3 - 1, by omega⟩
      obtain ⟨a, ha, hv⟩ := rtl_readBits_eq m 10 (by omega)
      rw [h.arch, advance_bufBit] at hv
      simp only [advance_offset] at hv
      have hw : (m.work.count - BitVec.ofNat 16 3).toNat = m.work.count.toNat - 3 := by
        have := m.work.count.isLt
        rw [BitVec.toNat_sub]; simp; omega
      rw [Rtl.numericLoop, if_pos h3, hq, fields, unpackFields, ha]
      simp only [Rtl.acc, emitGroup3, toNat_field, hv]
      by_cases hb : 1000 ≤ readNat s0.bufBit (s0.offset + k.used) 10
      · rw [if_pos hb, if_pos hb]
        exact ⟨_, rfl, by simp [Rtl.raise, h.arch, advance_advance], h.scr⟩
      · rw [if_neg hb, if_neg hb]
        generalize readNat s0.bufBit (s0.offset + k.used) 10 = v
        have := ih
          (((Rtl.emitDigit (v / 100) ⟨m.arch.advance 10, { m.work with acc := a }⟩).emitDigit (v / 10 % 10)).emitDigit
            (v % 10) |>.countDown 3)
          { used := k.used + 10
            text := k.text ++ (emitDigits [v / 100, v / 10 % 10, v % 10]).text
            bytes := k.bytes ++ (emitDigits [v / 100, v / 10 % 10, v % 10]).bytes }
          { arch := by simp [Rtl.countDown, Rtl.emitDigit, Rtl.emit, h.arch, advance_advance]
            text := by simp [Rtl.countDown, Rtl.emitDigit, Rtl.emit, h.text, emitDigits]
            bytes := by
              simp only [Rtl.countDown, Rtl.emitDigit, Rtl.emit, h.bytes, emitDigits, digit_setWidth, List.map,
                List.append_assoc, List.cons_append, List.nil_append]
            scr := h.scr }
          (by simp only [Rtl.countDown, Rtl.emitDigit, Rtl.emit, hw]; omega)
        simp only [Rtl.countDown, Rtl.emitDigit, Rtl.emit, hw] at this ⊢
        rw [show (m.work.count.toNat - 3) / 3 = q by omega,
          show (m.work.count.toNat - 3) % 3 = m.work.count.toNat % 3 by omega] at this
        rw [Nat.add_assoc s0.offset]; exact this
    · rw [Rtl.numericLoop, if_neg h3, show m.work.count.toNat / 3 = 0 by omega]
      exact ⟨m, rfl, h, by omega⟩

/-- SCR holds the size class. -/
theorem scrClass_code (sc : SizeClass) : scrClass sc.code = sc := by cases sc <;> decide

/-- After the length prefix the registers hold an empty segment, and COUNT the prefix (R161, R182, R201, R221). -/
theorem rtl_openSegment_holds (m : Rtl) (s0 : State) (mode) (sc : SizeClass) (hs : m.work.scr = sc.code)
    (h : m.arch = s0.advance 4) :
    Rtl.Holds s0 sc.code (m.openSegment mode) (Work.start mode sc) ∧
      (m.openSegment mode).work.count.toNat = readNat s0.bufBit (s0.offset + 4) (countWidth mode sc) := by
  have hw : countWidth mode sc ≤ 16 := by cases mode <;> cases sc <;> decide
  obtain ⟨a, ha, hv⟩ := rtl_readBits_eq m (countWidth mode sc) (by omega)
  rw [h, advance_bufBit] at hv
  simp only [advance_offset] at hv
  simp only [Rtl.openSegment, hs, scrClass_code, ha]
  refine ⟨⟨by simp [Work.start, h, advance_advance], rfl, rfl, rfl⟩, ?_⟩
  simp only [BitVec.toNat_setWidth, hv]
  exact Nat.mod_eq_of_lt (Nat.lt_of_lt_of_le (readNat_lt _ _ _) (Nat.pow_le_pow_right (by omega) hw))

/-- Registers that end as the walk ends close the segment as `closeSegment` does (R135, R266). -/
theorem rtl_close_agrees {s0 sc P r u} (ch : Work → Chunk) (chw : WorkRegs → Chunk)
    (hch : ∀ w k, w.segText = k.text → w.segBytes = k.bytes → chw w = ch k) (h : Rtl.Agrees s0 sc P r u) :
    (Rtl.close chw r).arch = closeSegment ch u s0 ∧ (Rtl.close chw r).work.scr = sc := by
  unfold Rtl.Agrees at h
  split at h
  · obtain ⟨m, rfl, hr, _⟩ := h
    simp only [Rtl.close, closeSegment, hr.arch, hr.text, hr.bytes, hch _ _ hr.text hr.bytes, hr.scr, and_self]
  · obtain ⟨m, rfl, hr, hs⟩ := h
    exact ⟨hr, hs⟩

/-- A comparison of COUNT with a constant, over the naturals. -/
theorem count_eq_iff (c : BitVec 16) (n : Nat) (hn : n < 65536) : c = BitVec.ofNat 16 n ↔ c.toNat = n := by
  constructor
  · rintro rfl; simp; omega
  · intro h; exact BitVec.eq_of_toNat_eq (by simp; omega)

/-- UnpackNumeric over the registers (R160). -/
theorem rtl_unpackNumeric_agrees (m : Rtl) (s0 : State) (sc : SizeClass) (hs : m.work.scr = sc.code)
    (h : m.arch = s0.advance 4) :
    Rtl.Agrees s0 sc.code (fun _ => True) m.unpackNumeric
      (unpackNumeric sc (decodeNum sc s0.bufBit (s0.offset + 4))) := by
  obtain ⟨hr, hc⟩ := rtl_openSegment_holds m s0 .num sc hs h
  simp only [Rtl.unpackNumeric, unpackNumeric, decodeNum]
  have := rtl_numericLoop_agrees s0 sc.code (m.openSegment .num).work.count.toNat _ _ hr (by omega)
  rw [hc] at this ⊢
  simp only [Work.start] at this ⊢
  rw [Nat.add_assoc s0.offset]
  revert this
  generalize hu : unpackFields emitGroup3 _ _ = u
  intro this
  unfold Rtl.Agrees at this
  split at this
  · rename_i k
    obtain ⟨m', hm', hr', hcount⟩ := this
    have hk : k.used = 4 + countWidth .num sc + 10 * (readNat s0.bufBit (s0.offset + 4) (countWidth .num sc) / 3) := by
      have := unpackFields_used hu
      rwa [length_fields] at this
    rw [hm']
    simp only [Rtl.numericRest]
    have e2 := count_eq_iff m'.work.count 2 (by omega)
    have e1 := count_eq_iff m'.work.count 1 (by omega)
    rw [hcount] at e1 e2
    rw [show (2 : BitVec 16) = BitVec.ofNat 16 2 from rfl, show (1 : BitVec 16) = BitVec.ofNat 16 1 from rfl]
    have hpos : s0.offset + (4 + countWidth .num sc) + 10 * (readNat s0.bufBit (s0.offset + 4) (countWidth .num sc) / 3) =
        s0.offset + k.used := by omega
    by_cases h2 : readNat s0.bufBit (s0.offset + 4) (countWidth .num sc) % 3 = 2
    · rw [if_pos (e2.2 h2), if_pos h2, hpos]
      obtain ⟨a, ha, hv⟩ := rtl_readBits_eq m' 7 (by omega)
      rw [hr'.arch, advance_bufBit] at hv
      simp only [advance_offset] at hv
      rw [ha]
      simp only [unpackNumRest, unpackFields, emitGroup2, toNat_field, Rtl.acc, hv]
      split
      · exact ⟨_, rfl, by simp [Rtl.raise, hr'.arch, advance_advance], hr'.scr⟩
      · refine ⟨_, rfl, ⟨?_, ?_, ?_, hr'.scr⟩, trivial⟩
        · simp [Rtl.emitDigit, Rtl.emit, hr'.arch, advance_advance]
        · simp [Rtl.emitDigit, Rtl.emit, hr'.text, emitDigits]
        · simp [Rtl.emitDigit, Rtl.emit, hr'.bytes, emitDigits]
    · rw [if_neg (fun h => h2 (e2.1 h)), if_neg h2]
      by_cases h1 : readNat s0.bufBit (s0.offset + 4) (countWidth .num sc) % 3 = 1
      · rw [if_pos (e1.2 h1), if_pos h1, hpos]
        obtain ⟨a, ha, hv⟩ := rtl_readBits_eq m' 4 (by omega)
        rw [hr'.arch, advance_bufBit] at hv
        simp only [advance_offset] at hv
        rw [ha]
        simp only [unpackNumRest, unpackFields, emitGroup1, toNat_field, Rtl.acc, hv]
        split
        · exact ⟨_, rfl, by simp [Rtl.raise, hr'.arch, advance_advance], hr'.scr⟩
        · refine ⟨_, rfl, ⟨?_, ?_, ?_, hr'.scr⟩, trivial⟩
          · simp [Rtl.emitDigit, Rtl.emit, hr'.arch, advance_advance]
          · simp [Rtl.emitDigit, Rtl.emit, hr'.text, emitDigits]
          · simp [Rtl.emitDigit, Rtl.emit, hr'.bytes, emitDigits]
      · rw [if_neg (fun h => h1 (e1.1 h)), if_neg h1]
        exact ⟨m', rfl, hr', trivial⟩
  · obtain ⟨m', hm', hr', hcount⟩ := this
    rw [hm']
    exact ⟨m', rfl, hr', hcount⟩

/-- An index in the table (R186). -/
theorem rtl_emitIndex_ok (i : Nat) (m : Rtl) (h : i < 45) : Rtl.emitIndex i m = .ok (m.emit (alphabet.getD i 0)) := by
  rw [Rtl.emitIndex, if_neg (by omega)]
/-- An index outside the table (R185). -/
theorem rtl_emitIndex_error (i : Nat) (m : Rtl) (h : 45 ≤ i) : Rtl.emitIndex i m = .error (m.raise .alnumIndex) := by
  rw [Rtl.emitIndex, if_pos (by omega)]

/-- The loop of R183 is the walk over the 11-bit pairs. -/
theorem rtl_alphanumericLoop_agrees (s0 : State) (sc : BitVec 2) (fuel : Nat) :
    ∀ (m : Rtl) (k : Work), Rtl.Holds s0 sc m k → m.work.count.toNat / 2 ≤ fuel →
    Rtl.Agrees s0 sc (fun m' => m'.work.count.toNat = m.work.count.toNat % 2) (Rtl.alphanumericLoop fuel m)
      (unpackFields emitPair (fields s0.bufBit 11 (m.work.count.toNat / 2) (s0.offset + k.used)) k) := by
  induction fuel with
  | zero =>
    intro m k h hc
    rw [show m.work.count.toNat / 2 = 0 by omega]
    exact ⟨m, rfl, h, by omega⟩
  | succ f ih =>
    intro m k h hc
    by_cases h3 : 2 ≤ m.work.count.toNat
    · obtain ⟨q, hq⟩ : ∃ q, m.work.count.toNat / 2 = q + 1 := ⟨m.work.count.toNat / 2 - 1, by omega⟩
      obtain ⟨a, ha, hv⟩ := rtl_readBits_eq m 11 (by omega)
      rw [h.arch, advance_bufBit] at hv
      simp only [advance_offset] at hv
      have hw : (m.work.count - BitVec.ofNat 16 2).toNat = m.work.count.toNat - 2 := by
        have := m.work.count.isLt
        rw [BitVec.toNat_sub]; simp; omega
      rw [Rtl.alphanumericLoop, if_pos h3, hq, fields, unpackFields, ha]
      simp only [Rtl.acc, hv]
      have hf : (field s0.bufBit (s0.offset + k.used) 11).toNat = readNat s0.bufBit (s0.offset + k.used) 11 := toNat_field _ _ _
      have hm := Nat.mod_lt (readNat s0.bufBit (s0.offset + k.used) 11) (show 45 > 0 by omega)
      by_cases hb : 45 ≤ readNat s0.bufBit (s0.offset + k.used) 11 / 45
      · rw [rtl_emitIndex_error _ _ hb, emitPair_error (by rw [hf]; exact hb)]
        exact ⟨_, rfl, by simp [Rtl.raise, h.arch, advance_advance], h.scr⟩
      · rw [rtl_emitIndex_ok _ _ (by omega), emitPair_ok (by rw [hf]; omega)]
        simp only [hf]
        rw [rtl_emitIndex_ok _ _ hm]
        simp only
        generalize readNat s0.bufBit (s0.offset + k.used) 11 = v
        have := ih
          (((Rtl.emit (alphabet.getD (v / 45) 0) ⟨m.arch.advance 11, { m.work with acc := a }⟩).emit
            (alphabet.getD (v % 45) 0)).countDown 2)
          { used := k.used + 11
            text := k.text ++ [alphabet.getD (v / 45) 0, alphabet.getD (v % 45) 0]
            bytes := k.bytes ++ [(alphabet.getD (v / 45) 0).setWidth 8, (alphabet.getD (v % 45) 0).setWidth 8] }
          { arch := by simp [Rtl.countDown, Rtl.emit, h.arch, advance_advance]
            text := by simp [Rtl.countDown, Rtl.emit, h.text]
            bytes := by simp [Rtl.countDown, Rtl.emit, h.bytes]
            scr := h.scr }
          (by simp only [Rtl.countDown, Rtl.emit, hw]; omega)
        simp only [Rtl.countDown, Rtl.emit, hw] at this ⊢
        rw [show (m.work.count.toNat - 2) / 2 = q by omega,
          show (m.work.count.toNat - 2) % 2 = m.work.count.toNat % 2 by omega] at this
        rw [Nat.add_assoc s0.offset]; exact this
    · rw [Rtl.alphanumericLoop, if_neg h3, show m.work.count.toNat / 2 = 0 by omega]
      exact ⟨m, rfl, h, by omega⟩

/-- UnpackAlphanumeric over the registers (R180). -/
theorem rtl_unpackAlphanumeric_agrees (m : Rtl) (s0 : State) (sc : SizeClass) (hs : m.work.scr = sc.code)
    (h : m.arch = s0.advance 4) :
    Rtl.Agrees s0 sc.code (fun _ => True) m.unpackAlphanumeric
      (unpackAlphanumeric sc (decodeAlnum sc s0.bufBit (s0.offset + 4))) := by
  obtain ⟨hr, hc⟩ := rtl_openSegment_holds m s0 .alnum sc hs h
  simp only [Rtl.unpackAlphanumeric, unpackAlphanumeric, decodeAlnum]
  have := rtl_alphanumericLoop_agrees s0 sc.code (m.openSegment .alnum).work.count.toNat _ _ hr (by omega)
  rw [hc] at this ⊢
  simp only [Work.start] at this ⊢
  rw [Nat.add_assoc s0.offset]
  revert this
  generalize hu : unpackFields emitPair _ _ = u
  intro this
  unfold Rtl.Agrees at this
  split at this
  · rename_i k
    obtain ⟨m', hm', hr', hcount⟩ := this
    have hk : k.used = 4 + countWidth .alnum sc + 11 * (readNat s0.bufBit (s0.offset + 4) (countWidth .alnum sc) / 2) := by
      have := unpackFields_used hu
      rwa [length_fields] at this
    rw [hm']
    have e1 := count_eq_iff m'.work.count 1 (by omega)
    rw [hcount] at e1
    simp only
    rw [show (1 : BitVec 16) = BitVec.ofNat 16 1 from rfl]
    have hpos : s0.offset + (4 + countWidth .alnum sc) + 11 * (readNat s0.bufBit (s0.offset + 4) (countWidth .alnum sc) / 2) =
        s0.offset + k.used := by omega
    by_cases h1 : readNat s0.bufBit (s0.offset + 4) (countWidth .alnum sc) % 2 = 1
    · rw [if_pos (e1.2 h1), if_pos h1, hpos]
      obtain ⟨a, ha, hv⟩ := rtl_readBits_eq m' 6 (by omega)
      rw [hr'.arch, advance_bufBit] at hv
      simp only [advance_offset] at hv
      rw [ha]
      simp only [Option.toList, unpackFields, emitSingle, toNat_field, Rtl.acc, hv]
      by_cases hb : 45 ≤ readNat s0.bufBit (s0.offset + k.used) 6
      · rw [rtl_emitIndex_error _ _ hb, emitIndex_error hb]
        exact ⟨_, rfl, by simp [Rtl.raise, hr'.arch, advance_advance], hr'.scr⟩
      · rw [rtl_emitIndex_ok _ _ (by omega), emitIndex_ok (by omega)]
        refine ⟨_, rfl, ⟨?_, ?_, ?_, hr'.scr⟩, trivial⟩
        · simp [Rtl.emit, hr'.arch, advance_advance]
        · simp [Rtl.emit, hr'.text]
        · simp [Rtl.emit, hr'.bytes]
    · rw [if_neg (fun h => h1 (e1.1 h)), if_neg h1]
      exact ⟨m', rfl, hr', trivial⟩
  · obtain ⟨m', hm', hr', hcount⟩ := this
    rw [hm']
    exact ⟨m', rfl, hr', hcount⟩

/-- The loop of R202 is the walk over the bytes. -/
theorem rtl_byteLoop_agrees (s0 : State) (sc : BitVec 2) (c : Nat) : ∀ (m : Rtl) (k : Work), Rtl.Holds s0 sc m k →
    ∃ k', unpackFields emitByte (fields s0.bufBit 8 c (s0.offset + k.used)) k = .ok k' ∧
      Rtl.Holds s0 sc (Rtl.byteLoop c m) k' := by
  induction c with
  | zero => intro m k h; exact ⟨k, rfl, h⟩
  | succ c ih =>
    intro m k h
    obtain ⟨a, ha, hv⟩ := rtl_readBits_eq m 8 (by omega)
    rw [h.arch, advance_bufBit] at hv
    simp only [advance_offset] at hv
    rw [Rtl.byteLoop, fields, unpackFields, ha]
    simp only [emitByte]
    rw [Nat.add_assoc s0.offset]
    refine ih _ ⟨k.used + 8, k.text ++ [], k.bytes ++ [field s0.bufBit (s0.offset + k.used) 8]⟩ ⟨?_, ?_, ?_, h.scr⟩
    · simp [Rtl.countDown, h.arch, advance_advance]
    · simp [Rtl.countDown, h.text]
    simp only [Rtl.countDown, h.bytes]
    congr 2
    refine BitVec.eq_of_toNat_eq ?_
    have := readNat_lt s0.bufBit (s0.offset + k.used) 8
    rw [toNat_field, BitVec.toNat_setWidth, hv, Nat.mod_eq_of_lt this]

/-- UnpackByte over the registers (R200). -/
theorem rtl_unpackByte_agrees (m : Rtl) (s0 : State) (sc : SizeClass) (hs : m.work.scr = sc.code)
    (h : m.arch = s0.advance 4) :
    Rtl.Agrees s0 sc.code (fun _ => True) (.ok m.unpackByte)
      (unpackByte s0.utf8 sc (decodeBytes sc s0.bufBit (s0.offset + 4))) := by
  obtain ⟨hr, hc⟩ := rtl_openSegment_holds m s0 .byte sc hs h
  obtain ⟨k', h1, h2⟩ := rtl_byteLoop_agrees s0 sc.code (m.openSegment .byte).work.count.toNat _ _ hr
  rw [hc] at h1 h2
  simp only [Work.start, ← Nat.add_assoc s0.offset] at h1
  simp only [unpackByte, decodeBytes, Work.start, h1, Rtl.unpackByte, hc]
  refine ⟨_, rfl, ⟨h2.arch, ?_, h2.bytes, h2.scr⟩, trivial⟩
  simp [h2.arch, h2.bytes]

/-- The sum of R222 fits in 16 bits (R223), so the code of the registers is the code of the field. -/
theorem rtl_kanjiCode_eq (m : Rtl) (k : BitVec 13) (h : m.acc = k.toNat) : m.kanjiCode = (kanjiCode k).toNat := by
  have hk := k.isLt
  have e : (k.toNat / 0xC0) <<< 8 ||| (k.toNat % 0xC0) = 256 * (k.toNat / 192) + k.toNat % 192 := by
    rw [Nat.shiftLeft_eq, Nat.mul_comm, ← Nat.two_pow_add_eq_or_of_lt (by omega)]
  have hlt : (if 256 * (k.toNat / 192) + k.toNat % 192 < 0x1F00 then 256 * (k.toNat / 192) + k.toNat % 192 + 0x8140
      else 256 * (k.toNat / 192) + k.toNat % 192 + 0xC140) < 2 ^ 16 := by split <;> omega
  simp only [Rtl.kanjiCode, kanjiCode, h, e, BitVec.toNat_ofNat]
  exact (Nat.mod_eq_of_lt hlt).symm

/-- The loop of R220 is the walk over the 13-bit values. -/
theorem rtl_kanjiLoop_agrees (s0 : State) (sc : BitVec 2) (c : Nat) : ∀ (m : Rtl) (k : Work), Rtl.Holds s0 sc m k →
    Rtl.Agrees s0 sc (fun _ => True) (Rtl.kanjiLoop c m)
      (unpackFields (emitKanji s0.sjis) (fields s0.bufBit 13 c (s0.offset + k.used)) k) := by
  induction c with
  | zero => intro m k h; exact ⟨m, rfl, h, trivial⟩
  | succ c ih =>
    intro m k h
    obtain ⟨ma, mw⟩ := m
    have hA : ma = s0.advance k.used := h.arch
    subst hA
    obtain ⟨a, ha, hv⟩ := rtl_readBits_eq ⟨s0.advance k.used, mw⟩ 13 (by omega)
    rw [h.arch, advance_bufBit] at hv
    simp only [advance_offset] at hv
    rw [Rtl.kanjiLoop, fields, unpackFields, ha]
    have hkc : Rtl.kanjiCode ⟨(s0.advance k.used).advance 13, { mw with acc := a }⟩ =
        (kanjiCode (field s0.bufBit (s0.offset + k.used) 13)).toNat :=
      rtl_kanjiCode_eq _ _ (by simp only [Rtl.acc, hv, toNat_field])
    simp only [hkc, BitVec.ofNat_toNat, BitVec.setWidth_eq, advance_sjis]
    cases hl : s0.sjis.lookup (kanjiCode (field s0.bufBit (s0.offset + k.used) 13)) with
    | none =>
      rw [emitKanji_error hl]
      exact ⟨_, rfl, by simp [Rtl.raise, advance_advance], h.scr⟩
    | some u =>
      rw [emitKanji_ok hl]
      simp only
      rw [Nat.add_assoc s0.offset]
      refine ih _ ⟨k.used + 13, _, _⟩ ⟨?_, ?_, ?_, h.scr⟩
      · simp [Rtl.countDown, advance_advance]
      · exact congrArg (· ++ [u]) h.text
      · refine congrArg₂ (· ++ ·) h.bytes (congrArg₂ (fun x y => [x, y]) ?_ ?_) <;> refine BitVec.eq_of_toNat_eq ?_
        · simp only [BitVec.toNat_ofNat, BitVec.toNat_setWidth, BitVec.toNat_ushiftRight]
        · simp only [BitVec.toNat_ofNat, BitVec.toNat_setWidth]
          rw [show (0xFF : Nat) = 2 ^ 8 - 1 from rfl, Nat.and_two_pow_sub_one_eq_mod, Nat.mod_mod]

/-- UnpackKanji over the registers (R220). -/
theorem rtl_unpackKanji_agrees (m : Rtl) (s0 : State) (sc : SizeClass) (hs : m.work.scr = sc.code)
    (h : m.arch = s0.advance 4) :
    Rtl.Agrees s0 sc.code (fun _ => True) m.unpackKanji
      (unpackKanji s0.sjis sc (decodeKanji sc s0.bufBit (s0.offset + 4))) := by
  obtain ⟨hr, hc⟩ := rtl_openSegment_holds m s0 .kanji sc hs h
  have := rtl_kanjiLoop_agrees s0 sc.code (m.openSegment .kanji).work.count.toNat _ _ hr
  rw [hc] at this
  simp only [Rtl.unpackKanji, unpackKanji, decodeKanji, hc]
  simp only [Work.start, ← Nat.add_assoc s0.offset] at this ⊢
  exact this

end Sys2Proof.Machine
end

