-- ==== Sys2Proof/Tests/Slice0.lean ====
section
/-! SUPPORT. Tests: a small state and one step each, every expected value taken from spec/95_test_vectors.md or written out from
the formats of spec/30_encoding.md; ill-formed terms that `Instr.wf` refuses; and for each statement with hypotheses a state and
operands that meet them (`witness_<name>`). -/

namespace Sys2Proof.Tests

open Sys2Proof Sys2Proof.Machine Sys2Proof.Claims

/-- The three-entry table of the vectors (spec/95_test_vectors.md, header). -/
def table : List (CodeUnit × CodeUnit) := [(0x8140, 0x3000), (0x935F, 0x70B9), (0xE4AA, 0x8317)]

/-- A decode just started on a buffer. -/
def started (buf : List Byte) (version : BitVec 6) : State :=
  { State.reset with mem := Memory.ofBytes buf, len := buf.length, version := version, resultVersion := version,
                     sjis := table }

/-- The same with OFFSET further on. -/
def startedAt (buf : List Byte) (version : BitVec 6) (offset : Nat) : State :=
  { started buf version with offset := offset }

/-- The Bit Cursor on a buffer with no decode running, a command word given. -/
def commanded (buf : List Byte) (offset : Nat) (w : BitVec 7) : State :=
  { startedAt buf 1 offset with status := .idle, pending := some (.cursor w) }

/-- What a test looks at of a next state. -/
structure Seen where
  status : Status
  cause  : Cause
  offset : Nat
  text   : List CodeUnit
  bytes  : List Byte
  chunks : List Chunk
deriving DecidableEq, Repr

def see : Host.Outcome State Fault Refusal → Option Seen
  | .next t => some ⟨t.status, t.cause, t.offset, t.text, t.bytes, t.chunks⟩
  | .fault _ => none
  | .refused _ => none

/-- STATUS, CAUSE and OFFSET of a next state: all that is looked at where a fault is taken (R266). -/
def seeEnd : Host.Outcome State Fault Refusal → Option (Status × Cause × Nat)
  | .next t => some (t.status, t.cause, t.offset)
  | .fault _ => none
  | .refused _ => none

/-- The value and the OFFSET that a cursor command leaves. -/
def seeReply : Host.Outcome State Fault Refusal → Option (Nat × Nat)
  | .next t => some (t.reply, t.offset)
  | .fault _ => none
  | .refused _ => none

def refusal : Host.Outcome State Fault Refusal → Option Refusal
  | .refused r => some r
  | .next _ => none
  | .fault _ => none

/-- What the host may read of a next state. -/
def seeView : Host.Outcome State Fault Refusal → Option HostView
  | .next t => some t.hostView
  | .fault _ => none
  | .refused _ => none

/-! ### Ill-formed terms (R84, R97) -/

theorem test_wf_numSc0 : Instr.wf (.numSc0 ⟨List.replicate 341 0, .one 0⟩) = false := by
  simp only [Instr.wf, countFits, countWidth, NumData.count, NumRest.count, List.length_replicate]; decide
theorem test_wf_numSc1 : Instr.wf (.numSc1 ⟨List.replicate 1365 0, .one 0⟩) = false := by
  simp only [Instr.wf, countFits, countWidth, NumData.count, NumRest.count, List.length_replicate]; decide
theorem test_wf_numSc2 : Instr.wf (.numSc2 ⟨List.replicate 5461 0, .one 0⟩) = false := by
  simp only [Instr.wf, countFits, countWidth, NumData.count, NumRest.count, List.length_replicate]; decide
theorem test_wf_alnumSc0 : Instr.wf (.alnumSc0 ⟨List.replicate 256 0, none⟩) = false := by
  simp only [Instr.wf, countFits, countWidth, AlnumData.count, singleCount, List.length_replicate]; decide
theorem test_wf_alnumSc1 : Instr.wf (.alnumSc1 ⟨List.replicate 1024 0, none⟩) = false := by
  simp only [Instr.wf, countFits, countWidth, AlnumData.count, singleCount, List.length_replicate]; decide
theorem test_wf_alnumSc2 : Instr.wf (.alnumSc2 ⟨List.replicate 4096 0, none⟩) = false := by
  simp only [Instr.wf, countFits, countWidth, AlnumData.count, singleCount, List.length_replicate]; decide
theorem test_wf_byteSc0 : Instr.wf (.byteSc0 (List.replicate 256 0)) = false := by
  simp only [Instr.wf, countFits, countWidth, List.length_replicate]; decide
theorem test_wf_byteSc1 : Instr.wf (.byteSc1 (List.replicate 65536 0)) = false := by
  simp only [Instr.wf, countFits, countWidth, List.length_replicate]; decide
theorem test_wf_byteSc2 : Instr.wf (.byteSc2 (List.replicate 65536 0)) = false := by
  simp only [Instr.wf, countFits, countWidth, List.length_replicate]; decide
theorem test_wf_kanjiSc0 : Instr.wf (.kanjiSc0 (List.replicate 256 0)) = false := by
  simp only [Instr.wf, countFits, countWidth, List.length_replicate]; decide
theorem test_wf_kanjiSc1 : Instr.wf (.kanjiSc1 (List.replicate 1024 0)) = false := by
  simp only [Instr.wf, countFits, countWidth, List.length_replicate]; decide
theorem test_wf_kanjiSc2 : Instr.wf (.kanjiSc2 (List.replicate 4096 0)) = false := by
  simp only [Instr.wf, countFits, countWidth, List.length_replicate]; decide
theorem test_wf_bcRead : Instr.wf (.bcRead 33) = false := by decide

/-! ### Words written out bit by bit from the formats (R80, R90, R97) -/

/-- The instruction at the start of a word of `n` bits. -/
def decodes (sc : SizeClass) (n w : Nat) : Instr := decodeSegment sc (bitOfList (bitsOf n w)) 0

theorem test_decode_numSc0 : decodes .sc0 45 0b0001_0000001000_0000001100_0101011001_1000011_0000 = .numSc0 ⟨[12, 345], .two 67⟩ := by
  decide
theorem test_decode_numSc1 : decodes .sc1 30 0b0001_000000000100_1111100111_0000 = .numSc1 ⟨[999], .one 0⟩ := by decide
theorem test_decode_numSc2 : decodes .sc2 35 0b0001_00000000000101_0000000000_0101010 = .numSc2 ⟨[0], .two 42⟩ := by decide
theorem test_decode_alnumSc0 :
    decodes .sc0 41 0b0010_000000101_00111001110_11100111001_000010 = .alnumSc0 ⟨[462, 1849], some 2⟩ := by decide
theorem test_decode_alnumSc1 : decodes .sc1 21 0b0010_00000000001_101100 = .alnumSc1 ⟨[], some 44⟩ := by decide
theorem test_decode_alnumSc2 : decodes .sc2 28 0b0010_0000000000010_11111101000 = .alnumSc2 ⟨[2024], none⟩ := by decide
theorem test_decode_byteSc0 : decodes .sc0 28 0b0100_00000010_01001000_01101001 = .byteSc0 [0x48, 0x69] := by decide
theorem test_decode_byteSc1 : decodes .sc1 36 0b0100_0000000000000010_11000011_10101001 = .byteSc1 [0xC3, 0xA9] := by decide
theorem test_decode_byteSc2 : decodes .sc2 28 0b0100_0000000000000001_11111111 = .byteSc2 [0xFF] := by decide
theorem test_decode_kanjiSc0 :
    decodes .sc0 38 0b1000_00000010_0110110011111_1101010101010 = .kanjiSc0 [0x0D9F, 0x1AAA] := by decide
theorem test_decode_kanjiSc1 : decodes .sc1 27 0b1000_0000000001_0110110011111 = .kanjiSc1 [0x0D9F] := by decide
theorem test_decode_kanjiSc2 : decodes .sc2 29 0b1000_000000000001_1101010101010 = .kanjiSc2 [0x1AAA] := by decide
theorem test_decode_eci7 : decodes .sc0 12 0b0111_0_1111111 = .eci7 127 := by decide
theorem test_decode_eci14 : decodes .sc1 20 0b0111_10_00001111101000 = .eci14 1000 := by decide
theorem test_decode_eci21 : decodes .sc2 28 0b0111_110_000011000011010100000 = .eci21 100000 := by decide
theorem test_decode_eciBad : decodes .sc0 8 0b0111_111_1 = .eciBad := by decide
theorem test_decode_term : decodes .sc0 8 0b0000_0111 = .term := by decide
theorem test_decode_reserved : (List.map (decodes .sc0 4)
    [0b0011, 0b0101, 0b0110, 0b1001, 0b1010, 0b1011, 0b1100, 0b1101, 0b1110, 0b1111]) =
    [.rsvd3, .rsvd5, .rsvd6, .rsvd9, .rsvd10, .rsvd11, .rsvd12, .rsvd13, .rsvd14, .rsvd15] := by decide
theorem test_decode_bcRead : (decodeCommand 0b0_100000).toOption = some (.bcRead 32) ∧
    (decodeCommand 0b0_100001).toOption = none := by decide
theorem test_decode_bcAvail : (decodeCommand 0b1_000000).toOption = some .bcAvail ∧
    (decodeCommand 0b1_101010).toOption = some .bcAvail := by decide
/-- No size class, no decoding (R303). -/
theorem test_decode_version : (decodeStream 0 (bitOfList []) 0).toOption = none ∧
    (decodeStream 41 (bitOfList []) 0).toOption = none ∧ (decodeStream 40 (bitOfList []) 0).toOption = some .term := by decide
/-- A word of the opcode table: the 4-bit word 0x7 as ECI.7 with a value of zeros, and the 7-bit word 0x3F as ECI.BAD. -/
theorem test_decode_tableWord : decodeTableWord 8 0x7 = some (.eci7 0) ∧ decodeTableWord 8 0x3F = some .eciBad ∧
    decodeTableWord 8 0x40 = some .bcAvail := by decide

/-! ### One step each (the vectors' names in brackets) -/

/-- [N1] -/
theorem test_step_numSc0 : see (step (started [0x10, 0x20, 0x0C, 0x56, 0x61, 0x80] 1)) =
    some ⟨.run, .none, 41, [0x30, 0x31, 0x32, 0x33, 0x34, 0x35, 0x36, 0x37],
      [0x30, 0x31, 0x32, 0x33, 0x34, 0x35, 0x36, 0x37],
      [.numeric [0x30, 0x31, 0x32, 0x33, 0x34, 0x35, 0x36, 0x37]]⟩ := by decide
/-- [N7] -/
theorem test_step_numSc0_group3 : seeEnd (step (started [0x10, 0x0F, 0xE8, 0x00] 1)) = some (.fault, .numGroup3, 24) := by decide
/-- [N10] -/
theorem test_step_num_group2 : seeEnd (step (started [0x10, 0x0B, 0x20, 0x00] 1)) = some (.fault, .numGroup2, 21) := by decide
/-- [N13] -/
theorem test_step_num_group1 : seeEnd (step (started [0x10, 0x06, 0x80] 1)) = some (.fault, .numGroup1, 18) := by decide
/-- [N2] -/
theorem test_step_numSc1 : see (step (started [0x10, 0x04, 0xF9, 0xC0, 0x00] 10)) =
    some ⟨.run, .none, 30, [0x39, 0x39, 0x39, 0x30], [0x39, 0x39, 0x39, 0x30], [.numeric [0x39, 0x39, 0x39, 0x30]]⟩ := by decide
/-- [N3] -/
theorem test_step_numSc2 : see (step (started [0x10, 0x01, 0x40, 0x05, 0x40] 27)) =
    some ⟨.run, .none, 35, [0x30, 0x30, 0x30, 0x34, 0x32], [0x30, 0x30, 0x30, 0x34, 0x32],
      [.numeric [0x30, 0x30, 0x30, 0x34, 0x32]]⟩ := by decide
/-- [A1] -/
theorem test_step_alnumSc0 : see (step (started [0x20, 0x29, 0xCE, 0xE7, 0x21, 0x00] 1)) =
    some ⟨.run, .none, 41, [0x41, 0x43, 0x2D, 0x34, 0x32], [0x41, 0x43, 0x2D, 0x34, 0x32],
      [.alphanumeric [0x41, 0x43, 0x2D, 0x34, 0x32]]⟩ := by decide
/-- [A5] -/
theorem test_step_alnumSc0_index : seeEnd (step (started [0x20, 0x17, 0xE9, 0x00] 1)) = some (.fault, .alnumIndex, 24) := by decide
/-- [A3] -/
theorem test_step_alnumSc1 : see (step (started [0x20, 0x03, 0x60, 0x00] 10)) =
    some ⟨.run, .none, 21, [0x3A], [0x3A], [.alphanumeric [0x3A]]⟩ := by decide
/-- [A4] -/
theorem test_step_alnumSc2 : see (step (started [0x20, 0x01, 0x7E, 0x80] 27)) =
    some ⟨.run, .none, 28, [0x3A, 0x3A], [0x3A, 0x3A], [.alphanumeric [0x3A, 0x3A]]⟩ := by decide
/-- [Y3] -/
theorem test_step_byteSc0_invalid : see (step (started [0x40, 0x2F, 0xF4, 0x10] 1)) =
    some ⟨.run, .none, 28, [], [0xFF, 0x41], [.byte [0xFF, 0x41] []]⟩ := by decide
/-- [Y6] A segment longer than the buffer (R142). -/
theorem test_step_byteSc0_truncated : see (step (started [0x40, 0x34, 0x10] 1)) =
    some ⟨.run, .none, 36, [0x41, 0, 0], [0x41, 0, 0], [.byte [0x41, 0, 0] [0x41, 0, 0]]⟩ := by decide
/-- [Y2] -/
theorem test_step_byteSc1 : see (step (started [0x40, 0x00, 0x2C, 0x3A, 0x90] 10)) =
    some ⟨.run, .none, 36, [0xE9], [0xC3, 0xA9], [.byte [0xC3, 0xA9] [0xE9]]⟩ := by decide
/-- [Y5] -/
theorem test_step_byteSc2 : see (step (started [0x40, 0x00, 0x4F, 0x09, 0xF9, 0x88, 0x00] 27)) =
    some ⟨.run, .none, 52, [0xD83D, 0xDE00], [0xF0, 0x9F, 0x98, 0x80],
      [.byte [0xF0, 0x9F, 0x98, 0x80] [0xD83D, 0xDE00]]⟩ := by decide
/-- [K1] -/
theorem test_step_kanjiSc0 : see (step (started [0x80, 0x26, 0xCF, 0xEA, 0xA8, 0x00] 1)) =
    some ⟨.run, .none, 38, [0x70B9, 0x8317], [0x93, 0x5F, 0xE4, 0xAA],
      [.kanji [0x93, 0x5F, 0xE4, 0xAA] [0x70B9, 0x8317]]⟩ := by decide
/-- [K6] -/
theorem test_step_kanjiSc0_unmapped :
    seeEnd (step (started [0x80, 0x20, 0x00, 0x00, 0x04, 0x00] 1)) = some (.fault, .kanjiUnmapped, 38) := by decide
/-- [K2] -/
theorem test_step_kanjiSc1 : see (step (started [0x80, 0x05, 0xB3, 0xE0] 10)) =
    some ⟨.run, .none, 27, [0x70B9], [0x93, 0x5F], [.kanji [0x93, 0x5F] [0x70B9]]⟩ := by decide
/-- [K3] -/
theorem test_step_kanjiSc2 : see (step (started [0x80, 0x01, 0xD5, 0x50, 0x00] 27)) =
    some ⟨.run, .none, 29, [0x8317], [0xE4, 0xAA], [.kanji [0xE4, 0xAA] [0x8317]]⟩ := by decide
/-- [E6] -/
theorem test_step_eci7 : see (step (started [0x77, 0xF0] 1)) = some ⟨.run, .none, 12, [], [], [.eci 127]⟩ := by decide
/-- [E11] -/
theorem test_step_eci14 : see (step (started [0x7B, 0xFF, 0xF0] 40)) = some ⟨.run, .none, 20, [], [], [.eci 16383]⟩ := by decide
/-- [E8] -/
theorem test_step_eci21 : see (step (started [0x7D, 0xFF, 0xFF, 0xF0] 1)) =
    some ⟨.run, .none, 28, [], [], [.eci 2097151]⟩ := by decide
/-- [E5] -/
theorem test_step_eciBad : see (step (started [0x7E, 0x20, 0x0B, 0x80] 1)) = some ⟨.run, .none, 7, [], [], [.eci (-1)]⟩ := by decide
/-- [E12] -/
theorem test_step_term : see (step (started [0x07] 1)) = some ⟨.done, .none, 4, [], [], []⟩ := by decide
/-- [L4, L17, L18] The ten reserved indicators at their places in the vectors' buffers. -/
theorem test_step_reserved : [0x33, 0x56, 0x6F, 0x9A, 0xAB, 0xBC, 0xCD, 0xDE, 0xEF, 0xFF].all (fun b =>
    see (step (started [b, 0xFF] 1)) == some ⟨.run, .none, 4, [], [], []⟩) = true := by decide
/-- [B16] -/
theorem test_step_bcRead :
    seeReply (step (commanded [0xFF, 0xFF, 0xFF, 0xFF, 0xFF] 3 0b0_100000)) =
      some (0xFFFFFFFF, 35) := by decide
/-- [B18] Three missing bits are the low-order zeros. -/
theorem test_step_bcRead_end :
    seeReply (step (commanded [0xFF, 0xFF, 0xFF, 0xFF] 3 0b0_100000)) =
      some (0xFFFFFFF8, 35) := by decide
/-- [B14] and beyond the end: 4 bits left, and clamped at 0. -/
theorem test_step_bcAvail :
    seeReply (step (commanded [0xA5, 0x3C, 0xF0] 20 0b1_000000)) = some (4, 20) ∧
    seeReply (step (commanded [0xA5, 0x3C, 0xF0] 28 0b1_000000)) = some (0, 28) := by decide
/-- A command word in RUN is refused (R5, R38), a good one and a reserved one alike. -/
theorem test_step_cursor_in_run : [0b0_000100, 0b0_100001, 0b1_000000].all (fun w =>
    refusal (step { started [0xA5] 1 with pending := some (.cursor w) }) == some .cursorWhileRunning) = true := by decide
/-- A load at DONE leaves the finished result, its VERSION too, as it is (R308). -/
theorem test_step_load_done : seeView (step { started [0x00] 7 with
      status := .done, text := [0x41], pending := some (.load [0x10] 9) }) = some (.result ⟨[0x41], [], [], 7⟩) := by decide
/-- [L5, L6, L7, L1] The tail check. -/
theorem test_step_tail : seeEnd (step (startedAt [0x10, 0x09, 0x50] 1 21)) = some (.done, .none, 24) ∧
    seeEnd (step (startedAt [0x10, 0x09, 0x51] 1 21)) = some (.fault, .unterminated, 24) ∧
    seeEnd (step (startedAt [0x10, 0x09, 0x54] 1 21)) = some (.fault, .unterminated, 24) ∧
    seeEnd (step (started [] 1)) = some (.done, .none, 0) := by decide
/-- A word placed where the next step fetches runs in that step, from OFFSETs at and off a byte boundary. -/
theorem test_withFetchWord : see (step ((started [] 1).withFetchWord 8 0x3)) = some ⟨.run, .none, 4, [], [], []⟩ ∧
    see (step ((startedAt [0xFF, 0xFF] 1 5).withFetchWord 8 0x1E)) = some ⟨.run, .none, 25, [], [], [.eci 0]⟩ ∧
    seeReply (step ((started [0xA5] 1).withFetchWord 8 0x20)) = some (0xA5000000, 32) := by decide
/-- The register-level machine runs the same vector [N1]. -/
theorem test_rtl_numSc0 :
    (Rtl.step ⟨started [0x10, 0x20, 0x0C, 0x56, 0x61, 0x80] 1, ⟨0xDEADBEEF, 9, 77, 0, [1], [2]⟩⟩).arch.text =
      [0x30, 0x31, 0x32, 0x33, 0x34, 0x35, 0x36, 0x37] := by decide
/-- START, from power-on with a buffer placed. -/
theorem test_start : see (step { started [0x00] 7 with status := .idle, offset := 9, pending := some .start }) =
    some ⟨.run, .none, 0, [], [], []⟩ := by decide
/-- The notation of R95: the streams of [N1] and [E10] cut into bytes. -/
theorem test_streamBytes : streamBytes [.numSc0 (numOfDigits [0, 1, 2, 3, 4, 5, 6, 7]), .term] =
      [0x10, 0x20, 0x0C, 0x56, 0x61, 0x80] ∧
    streamBytes [.eci7 3, .eci7 26, .term] = [0x70, 0x37, 0x1A, 0x00] := by decide

/-! ### What meets the hypotheses of the statements, at the ends of their ranges -/

theorem witness_MemReadPutsFirstBitMostSignificant :
    7 < 8 * (started [0xA5] 1).len ∧ 8 * (started [0xA5] 1).len ≤ 8 := by decide

theorem witness_BcReadReturnsNextBits : (0 : BitVec 6).toNat ≤ 32 ∧ (32 : BitVec 6).toNat ≤ 32 := by decide

theorem witness_BcReadAbove32IsRefused : 32 < (33 : BitVec 6).toNat ∧ 32 < (63 : BitVec 6).toNat ∧
    (commanded [] 0 33).status ≠ .run ∧
    (commanded [] 0 33).pending = some (.cursor (BitVec.ofNat 7 (33 : BitVec 6).toNat)) := by decide

theorem witness_SplitReadsEqualOneRead : (20 : BitVec 6).toNat + (12 : BitVec 6).toNat = (32 : BitVec 6).toNat ∧
    (32 : BitVec 6).toNat ≤ 32 := by decide

theorem witness_MissingBitsReadAsLowOrderZeros :
    (5 ≤ 8 * (started [0xA5] 1).len ∧ 8 * (started [0xA5] 1).len ≤ 5 + 4) ∧ 8 * (started [0xA5] 1).len ≤ 8 := by decide

theorem witness_ShiftRegisterFormEqualsReadBits : 0 ≤ 32 ∧ 32 ≤ 32 := by decide

theorem witness_MemoryReadAfterWrite : Memory.wf [(3, 7)] = true ∧ Memory.wf (Memory.ofBytes [0, 0, 0, 7]) = true ∧
    ∀ a, Memory.read [(3, 7)] a = Memory.read (Memory.ofBytes [0, 0, 0, 7]) a :=
  ⟨by decide, by decide, fun _ => rfl⟩

theorem witness_SizeClassesAndCountWidths :
    [1, 9, 10, 26, 27, 40].map sizeClass =
      [some SizeClass.sc0, some .sc0, some .sc1, some .sc1, some .sc2, some .sc2] ∧
    [0, 41, 63].map sizeClass = [none, none, none] := by decide

/-- Each of the sixteen indicators at the start of a byte. -/
theorem witness_IndicatorSelectsTheRow :
    ∀ n, n < 16 → readNat (bitOfBytes [BitVec.ofNat 8 (16 * n)]) 0 4 = n := by decide

/-- [N1], one bit into a buffer. -/
theorem witness_DecodingAnEncodedSegmentGivesItBack :
    Instr.wf (.numSc0 ⟨[12, 345], .two 67⟩) = true ∧ Instr.inStream .sc0 (.numSc0 ⟨[12, 345], .two 67⟩) = true ∧
    ∀ k, k < (encode (.numSc0 ⟨[12, 345], .two 67⟩)).length →
      bitOfBytes [0x10, 0x20, 0x0C, 0x56, 0x61, 0x80] (0 + k) =
        (encode (.numSc0 ⟨[12, 345], .two 67⟩)).getD k false := by decide

theorem witness_NoSegmentBeginsAnother : Instr.wf .eciBad = true ∧ Instr.inStream .sc1 .eciBad = true ∧
    encode .eciBad <+: encode .eciBad := by decide

theorem witness_CursorCommandWords : (32 : BitVec 6).toNat ≤ 32 ∧ 32 < (33 : BitVec 6).toNat ∧
    (Instr.isCommand (.bcRead 32) = true ∧ Instr.wf (.bcRead 32) = true) ∧
    Instr.isCommand .bcAvail = true ∧ Instr.wf .bcAvail = true := by decide

theorem witness_SegmentLengthsAndOffsetAdvance : Instr.isCommand (.numSc0 ⟨[999], .none⟩) = false ∧
    (started [] 1).status = .run ∧ Instr.rsvd15 ∈ [Instr.rsvd3, .rsvd15] ∧
    ∃ t, exec (.numSc0 ⟨[999], .none⟩) (started [] 1) = .next t ∧ t.status ≠ .fault :=
  ⟨by decide, by decide, by decide, _, rfl, by decide⟩

/-- A terminator at the last four bits of a buffer, and BC.READ 32 pending. -/
theorem witness_AStepRunsTheDecodedInstruction :
    (startedAt [0xF0] 40 4).pending = none ∧ (startedAt [0xF0] 40 4).status = .run ∧
    sizeClass (startedAt [0xF0] 40 4).version = some .sc2 ∧ 4 ≤ (startedAt [0xF0] 40 4).available ∧
    Instr.wf .term = true ∧ Instr.inStream .sc2 .term = true ∧
    (∀ k, k < (encode .term).length → (startedAt [0xF0] 40 4).bufBit ((startedAt [0xF0] 40 4).offset + k) =
      (encode .term).getD k false) ∧
    (commanded [] 0 32).status ≠ .run ∧ (commanded [] 0 32).pending = some (.cursor 32) ∧
    (decodeCommand 32).toOption = some (.bcRead 32) := by decide

/-- The ends of the range of an assignment number. -/
theorem witness_PortEncodings : [-1, 0, 2097151].all (fun a : Int => decide (a = -1 ∨ (0 ≤ a ∧ a < 2 ^ 21))) = true := by
  decide

/-- The longest strings that size class 0 can count: 1023 digits, 511 characters. -/
theorem witness_NumericRoundTrip : (List.replicate 1023 (9 : Fin 10)).length < 2 ^ countWidth .num .sc0 := by
  rw [List.length_replicate]; decide

theorem witness_AlphanumericRoundTrip : (List.replicate 511 (44 : Fin 45)).length < 2 ^ countWidth .alnum .sc0 := by
  rw [List.length_replicate]; decide

/-- The tails of [L1], [L5] and [L6]: none left, three zero bits, three bits not all zero. -/
theorem witness_TailCheckEndsTheRun :
    [started [] 1, startedAt [0x10, 0x09, 0x50] 1 21, startedAt [0x10, 0x09, 0x51] 1 21].all (fun s =>
      decide (s.pending = none ∧ s.status = .run ∧ (sizeClass s.version).isSome ∧ s.available < 4)) = true ∧
    (started [] 1).available = 0 ∧ 0 < (startedAt [0x10, 0x09, 0x50] 1 21).available ∧
    (Memory.read (startedAt [0x10, 0x09, 0x50] 1 21).mem 2).toNat %
      2 ^ (startedAt [0x10, 0x09, 0x50] 1 21).available = 0 ∧
    (Memory.read (startedAt [0x10, 0x09, 0x51] 1 21).mem 2).toNat %
      2 ^ (startedAt [0x10, 0x09, 0x51] 1 21).available ≠ 0 := by decide

theorem witness_AStepIsEnabledExactlyInRun :
    ((started [] 1).pending = none ∧ (sizeClass (started [] 1).version).isSome ∧ (started [] 1).status = .run ∧
      ∃ t, step (started [] 1) = .next t) ∧
    [Status.idle, .done, .fault].all (fun x => decide ({ started [] 0 with status := x }.pending = none ∧
      { started [] 0 with status := x }.status ≠ .run)) = true :=
  ⟨⟨by decide, by decide, by decide, _, rfl⟩, by decide⟩

theorem witness_StartTakesTheResetValues : [Status.idle, .done, .fault].all (fun x =>
    [1, 40].all fun v => decide
      ({ started [] v with status := x, pending := some .start }.pending = some .start ∧
       { started [] v with status := x, pending := some .start }.status ≠ .run ∧ 1 ≤ v.toNat ∧ v.toNat ≤ 40)) = true := by
  decide

theorem witness_StartIsRefused : { started [] 1 with pending := some .start }.status = .run ∧
    { started [] 0 with pending := some .start, status := .idle }.version.toNat = 0 ∧
    40 < { started [] 41 with pending := some .start, status := .idle }.version.toNat := by decide

theorem witness_InputChangesAreRefusedInRun :
    { started [] 1 with pending := some (.load [0x10] 2) }.status = .run ∧
    { started [] 1 with pending := some (.load [0x10] 2) }.pending = some (.load [0x10] 2) ∧
    { started [] 1 with pending := some (.configure table .strict) }.pending = some (.configure table .strict) := by decide

theorem witness_ALoadPlacesTheBuffer :
    { started [] 1 with status := .idle, pending := some (.load [0, 0x10] 2) }.status ≠ .run ∧
    { started [] 1 with status := .idle, pending := some (.load [0, 0x10] 2) }.pending = some (.load [0, 0x10] 2) := by decide

theorem witness_HostReadsTheResultOnlyAtDone : [Status.done, .fault, .run, .idle].all (fun x =>
    decide ({ started [] 1 with status := x }.status = x)) = true := by decide

theorem witness_NumericSegmentResult :
    (∀ g ∈ (⟨[999, 0], .two 99⟩ : NumData).groups, g.toNat < 1000) ∧ restInRange (.two 99) ∧ restInRange (.one 9) ∧
    restInRange .none := by simp [restInRange]

theorem witness_NumericFaultAtFirstBadGroup : (∀ u ∈ ([999] : List (BitVec 10)), u.toNat < 1000) ∧
    1000 ≤ (1000 : BitVec 10).toNat ∧ 100 ≤ (100 : BitVec 7).toNat ∧ 10 ≤ (10 : BitVec 4).toNat :=
  ⟨List.forall_mem_singleton.2 (by decide), by decide, by decide, by decide⟩

theorem witness_AlphanumericSegmentResult : indices ⟨[2024], some 44⟩ = [44, 44, 44] ∧
    ∀ i ∈ indices ⟨[2024], some 44⟩, i ≤ 44 := by decide

theorem witness_AlphanumericFaultAtFirstBadIndex : (∀ u ∈ ([2024] : List (BitVec 11)), u.toNat / 45 ≤ 44) ∧
    44 < (2025 : BitVec 11).toNat / 45 ∧ 44 < (45 : BitVec 6).toNat :=
  ⟨List.forall_mem_singleton.2 (by decide), by decide, by decide⟩

theorem witness_ByteSegmentResult : utf8Decode (started [] 1).utf8 [0xC3, 0xA9] = some [0xE9] ∧
    utf8Decode (started [] 1).utf8 [0xFF, 0x41] = none := by decide

theorem witness_KanjiSegmentResult : ∀ k ∈ ([0] : List (BitVec 13)),
    (started [] 1).sjis.lookup (BitVec.ofNat 16 (shiftJis k)) = some ((fun _ => 0x3000 : BitVec 13 → CodeUnit) k) :=
  List.forall_mem_singleton.2 (by decide)

theorem witness_KanjiFaultAtFirstUnmappedCode :
    (∀ u ∈ ([0] : List (BitVec 13)), ((started [] 1).sjis.lookup (BitVec.ofNat 16 (shiftJis u))).isSome) ∧
    (started [] 1).sjis.lookup (BitVec.ofNat 16 (shiftJis 1)) = none :=
  ⟨List.forall_mem_singleton.2 (by decide), by decide⟩

theorem witness_ReservedIndicatorsAreNoOperations :
    Instr.rsvd3 ∈ [Instr.rsvd3, .rsvd5, .rsvd6, .rsvd9, .rsvd10, .rsvd11, .rsvd12, .rsvd13, .rsvd14, .rsvd15] := by decide

/-- [Y6] -/
theorem witness_ByteSegmentStepReadsTheBuffer :
    (started [0x40, 0x34, 0x10] 1).pending = none ∧ (started [0x40, 0x34, 0x10] 1).status = .run ∧
    sizeClass (started [0x40, 0x34, 0x10] 1).version = some .sc0 ∧ 4 ≤ (started [0x40, 0x34, 0x10] 1).available ∧
    (started [0x40, 0x34, 0x10] 1).memRead (started [0x40, 0x34, 0x10] 1).offset 4 = 0x4 := by decide

theorem witness_AlphabetTable : 9 ≤ 9 ∧ 10 ≤ 10 ∧ 35 ≤ 35 := by decide

theorem witness_KanjiCodeRangesAndInjectivity : (5951 : BitVec 13).toNat / 192 ≤ 30 ∧
    31 ≤ (5952 : BitVec 13).toNat / 192 ∧ kanjiCode 5952 = kanjiCode 5952 := by decide

theorem witness_EveryStepKeepsTheInvariant : (started [0x00] 1).Inv ∧ ∃ t, step (started [0x00] 1) = .next t :=
  ⟨⟨by decide, by decide, by decide, by decide, (fun _ _ h => nomatch h), by decide, by decide⟩, _, rfl⟩

/-- At the bound itself: one byte of BUF and OFFSET 8 + 524296. -/
theorem witness_OffsetStaysBounded : (startedAt [0x00] 1 524304).OffsetInv ∧
    (∃ t, step (startedAt [0x00] 1 524304) = .next t) ∧ 4 ≤ (startedAt [0x00] 1 4).available :=
  ⟨⟨.inl rfl, by decide⟩, ⟨_, rfl⟩, by decide⟩

theorem witness_OffsetOnlyIncreases : (startedAt [0x00] 1 4).pending = none ∧ 4 ≤ (startedAt [0x00] 1 4).available ∧
    ∃ t, step (startedAt [0x00] 1 4) = .next t := ⟨by decide, by decide, _, rfl⟩

theorem witness_EveryDecodeEnds : (started [0x33] 40).pending = none ∧ (started [0x33] 40).status = .run ∧
    (sizeClass (started [0x33] 40).version).isSome := by decide

theorem witness_AStepIsThePseudocodeOverRegisters :
    (⟨started [0x33] 40, ⟨1, 2, 3, 2, [4], [5]⟩⟩ : Rtl).arch.pending = none ∧
    (⟨started [0x33] 40, ⟨1, 2, 3, 2, [4], [5]⟩⟩ : Rtl).arch.status = .run ∧
    sizeClass (⟨started [0x33] 40, ⟨1, 2, 3, 2, [4], [5]⟩⟩ : Rtl).arch.version = some .sc2 ∧
    (⟨started [0x33] 40, ⟨1, 2, 3, 2, [4], [5]⟩⟩ : Rtl).work.scr = SizeClass.sc2.code := by decide

/-- Two states that hold different old contents, and one step of the decode after START. -/
def startedFrom (x : Status) (old : List CodeUnit) : State :=
  { started [0x77, 0xF0] 1 with status := x, text := old, offset := old.length, pending := some .start }

theorem witness_ADecodeDependsOnItsInputsOnly :
    (startedFrom .idle []).pending = some .start ∧ (startedFrom .fault [1]).pending = some .start ∧
    (startedFrom .idle []).status ≠ .run ∧ (startedFrom .fault [1]).status ≠ .run ∧
    (startedFrom .idle []).mem = (startedFrom .fault [1]).mem ∧ (startedFrom .idle []).len = (startedFrom .fault [1]).len ∧
    (startedFrom .idle []).version = (startedFrom .fault [1]).version ∧
    (startedFrom .idle []).sjis = (startedFrom .fault [1]).sjis ∧
    (startedFrom .idle []).utf8 = (startedFrom .fault [1]).utf8 ∧ ∃ t, run (1 + 1) (startedFrom .idle []) = .next t :=
  ⟨by decide, by decide, by decide, by decide, by decide, by decide, by decide, by decide, by decide, _, rfl⟩

theorem witness_NoStepWritesTheInputs : (started [0x33] 1).pending = none ∧
    ∃ t, step (started [0x33] 1) = .next t := ⟨by decide, _, rfl⟩

theorem witness_TheResultListsSteerNothing : (started [0x77, 0xF0] 1).pending = none ∧
    ∃ t, step (started [0x77, 0xF0] 1) = .next t ∧ t.status ≠ .fault := ⟨by decide, _, rfl, by decide⟩

theorem witness_FaultsComeFromTheTaxonomy : (started [] 1).status ≠ .fault ∧
    (∃ t, exec (.numSc0 ⟨[1000], .none⟩) (started [] 1) = .next t ∧ t.status = .fault) ∧
    (∃ t, exec (.alnumSc1 ⟨[], some 45⟩) (started [] 1) = .next t ∧ t.status = .fault) ∧
    ∃ t, exec (.kanjiSc2 [1]) (started [] 1) = .next t ∧ t.status = .fault :=
  ⟨by decide, ⟨_, rfl, by decide⟩, ⟨_, rfl, by decide⟩, _, rfl, by decide⟩

/-- A terminator, an empty tail, and three zero bits left. -/
theorem witness_TheWaysToDone :
    ((startedAt [0xF0] 1 4).pending = none ∧ (∃ t, step (startedAt [0xF0] 1 4) = .next t ∧ t.status = .done) ∧
      4 ≤ (startedAt [0xF0] 1 4).available ∧ (startedAt [0xF0] 1 4).memRead (startedAt [0xF0] 1 4).offset 4 = 0) ∧
    ((∃ t, step (startedAt [0xF0] 1 5) = .next t ∧ t.status = .done) ∧
      (startedAt [0xF0] 1 5).available < 4 ∧
      (startedAt [0xF0] 1 5).memRead (startedAt [0xF0] 1 5).offset (startedAt [0xF0] 1 5).available = 0) :=
  ⟨⟨by decide, ⟨_, rfl, by decide⟩, by decide, by decide⟩, ⟨_, rfl, by decide⟩, by decide, by decide⟩

/-- DONE with a new buffer pending, FAULT with a cursor command pending. -/
theorem witness_OnlyStartLeavesAFinalStatus :
    ({ started [] 1 with status := .done, pending := some (.load [0] 1) }.over = true ∧
      { started [] 1 with status := .done, pending := some (.load [0] 1) }.pending ≠ some .start ∧
      ∃ t, step { started [] 1 with status := .done, pending := some (.load [0] 1) } = .next t) ∧
    ({ started [] 1 with status := .fault, pending := some (.cursor 64) }.over = true ∧
      { started [] 1 with status := .fault, pending := some (.cursor 64) }.pending ≠ some .start ∧
      ∃ t, step { started [] 1 with status := .fault, pending := some (.cursor 64) } = .next t) :=
  ⟨⟨by decide, by decide, _, rfl⟩, by decide, by decide, _, rfl⟩

/-- START on a buffer that holds a terminator, and one step of the decode. -/
theorem witness_TheResultEchoesTheVersion :
    { started [0x00] 7 with status := .idle, pending := some .start }.pending = some .start ∧
    { started [0x00] 7 with status := .idle, pending := some .start }.status ≠ .run ∧
    ∃ t, run (1 + 1) { started [0x00] 7 with status := .idle, pending := some .start } = .next t ∧ t.status = .done :=
  ⟨by decide, by decide, _, rfl, by decide⟩

theorem witness_TheHostHasNoStepInRun : (started [0x00] 7).status = .run ∧
    { started [0x00] 7 with pending := some (.cursor 32) }.pending = some (.cursor 32) ∧
    ∃ w, HostCmd.cursor 32 = .cursor w := ⟨by decide, by decide, _, rfl⟩

theorem witness_AConfigureSetsTheParameters :
    { started [] 1 with status := .done, pending := some (.configure table (.other 3)) }.status ≠ .run ∧
    { started [] 1 with status := .done, pending := some (.configure table (.other 3)) }.pending =
      some (.configure table (.other 3)) := by decide

end Sys2Proof.Tests
end

section
/-! The size classes and the widths of the length prefixes (R7, R84): settles O9. -/

namespace Sys2Proof

/-- The lowest version of a size class, from the table of R7. -/
def SizeClass.firstVersion : SizeClass → Nat
  | .sc0 => 1
  | .sc1 => 10
  | .sc2 => 27

/-- The highest version of a size class, from the table of R7. -/
def SizeClass.lastVersion : SizeClass → Nat
  | .sc0 => 9
  | .sc1 => 26
  | .sc2 => 40

/-- Each branch of `sizeClass` leaves the version in one interval of R7 or in none, and the intervals do not meet. -/
theorem sizeClass_eq_some_iff (v : BitVec 6) (sc : SizeClass) :
    sizeClass v = some sc ↔ sc.firstVersion ≤ v.toNat ∧ v.toNat ≤ sc.lastVersion := by
  simp only [sizeClass]
  split_ifs <;> cases sc <;> simp [SizeClass.firstVersion, SizeClass.lastVersion] <;> omega

/-- Settles O9: the intervals of `sizeClass_eq_some_iff` class by class, and R84's table by evaluating `countWidth`. -/
theorem sizeClassesAndCountWidths : Obligations.SizeClassesAndCountWidths := by
  unfold Obligations.SizeClassesAndCountWidths
  refine ⟨fun v => ⟨?_, ?_, ?_⟩, rfl, rfl, rfl, rfl⟩
  · exact sizeClass_eq_some_iff v .sc0
  · exact sizeClass_eq_some_iff v .sc1
  · exact sizeClass_eq_some_iff v .sc2

end Sys2Proof
end

section
/-! Reset, power-on and the start of a decode (R36, R302): settles O25. -/

namespace Sys2Proof.Machine

/-- "The block's reset is the start of a decode" (R36): START's reset values change nothing in the reset state, so each
`launch_<field>` lemma says what that field holds at reset. -/
@[simp] theorem launch_reset : State.reset.launch = State.reset := rfl

@[simp] theorem powerOn_status : State.powerOn.status = .idle := rfl

@[simp] theorem rtl_launch_arch (m : Rtl) (sc : SizeClass) : (m.launch sc).arch = m.arch.launch := rfl

@[simp] theorem rtl_launch_scr (m : Rtl) (sc : SizeClass) : (m.launch sc).work.scr = sc.code := rfl

/-- Settles O25: by `launch_reset` the fields at reset are those that START leaves. -/
theorem resetValues : Obligations.ResetValues := by
  unfold Obligations.ResetValues
  rw [← launch_reset]
  exact ⟨launch_offset _, launch_text _, launch_bytes _, launch_chunks _, launch_status _, launch_cause _,
    powerOn_status, fun m sc => ⟨rtl_launch_arch m sc, rtl_launch_scr m sc⟩⟩

end Sys2Proof.Machine
end

section
/-! The bits of BUF and what MemRead makes of them (R52, R53): settles O1. -/

namespace Sys2Proof

/-- `readNat` doubles what it has read before each further bit, so a bit counts twice as much for every bit that follows
it (R53). -/
theorem readNat_eq_sum (bit : Nat → Bool) (j n : Nat) :
    readNat bit j n = ((List.range n).map fun i => (bit (j + i)).toNat * 2 ^ (n - 1 - i)).sum := by
  induction n with
  | zero => rfl
  | succ n ih =>
    have weight : ∀ i ∈ List.range n,
        2 * ((bit (j + i)).toNat * 2 ^ (n - 1 - i)) = (bit (j + i)).toNat * 2 ^ (n + 1 - 1 - i) := by
      intro i hi
      have hi := List.mem_range.1 hi
      rw [show n + 1 - 1 - i = n - 1 - i + 1 by omega, Nat.pow_succ]
      ring
    rw [readNat, ih, ← List.sum_map_mul_left, List.map_congr_left weight, List.sum_range_succ]
    simp

/-- The statements' bit as a number is the core library's. -/
theorem bitNat_eq_toNat (b : Bool) : Claims.bitNat b = b.toNat := by cases b <;> rfl

/-- Bit `i` of a word, as a number, is what a shift by `i` leaves at the bottom. -/
theorem toNat_getLsbD {w : Nat} (x : BitVec w) (i : Nat) : (x.getLsbD i).toNat = x.toNat >>> i &&& 1 := by
  rw [BitVec.getLsbD, Nat.toNat_testBit, Nat.and_one_is_mod, Nat.shiftRight_eq_div_pow]

end Sys2Proof

namespace Sys2Proof.Machine

theorem bufBit_of_lt {s : State} {j : Nat} (h : j < 8 * s.len) :
    s.bufBit j = (Memory.read s.mem (j / 8)).getLsbD (7 - j % 8) := by
  rw [State.bufBit, if_pos h]

theorem bufBit_of_le {s : State} {j : Nat} (h : 8 * s.len ≤ j) : s.bufBit j = false := by
  rw [State.bufBit, if_neg (Nat.not_lt.2 h)]

/-- Settles O1: the two sides of `8×LEN` by `bufBit_of_lt` and `bufBit_of_le`, and `MemRead` is `readNat_eq_sum` over
`BufBit`. -/
theorem memReadPutsFirstBitMostSignificant : Obligations.MemReadPutsFirstBitMostSignificant := by
  unfold Obligations.MemReadPutsFirstBitMostSignificant
  intro s j n
  simp only [bitNat_eq_toNat]
  refine ⟨fun h => ?_, bufBit_of_le, readNat_eq_sum s.bufBit j n⟩
  rw [bufBit_of_lt h, toNat_getLsbD]

end Sys2Proof.Machine
end

section
/-! The command words of the Bit Cursor (R97): settles O15. -/

namespace Sys2Proof

/-- A list of bits is what is read from its own start. -/
theorem reads_bitOfList (l : List Bool) : Reads (bitOfList l) 0 l := fun k _ => by rw [Nat.zero_add, bitOfList]

theorem commandWord_bitsOf {v : Nat} (h : v < 2 ^ 7) : commandWord (bitsOf 7 v) = BitVec.ofNat 7 v := by
  rw [commandWord, readNat_of_reads (reads_bitOfList _) h]

/-- The word `0 nnnnnn` is the number `n` over seven bits. -/
theorem commandWord_encode_bcRead (n : BitVec 6) :
    commandWord (encode (.bcRead n)) = BitVec.ofNat 7 n.toNat := by
  have hn := n.isLt
  have top : n.toNat.testBit 6 = false := Nat.testBit_lt_two_pow hn
  have bits : encode (.bcRead n) = bitsOf 7 n.toNat := congrArg (· :: bitsOf 6 n.toNat) top.symm
  rw [bits, commandWord_bitsOf (by omega)]

/-- The encoder writes zeros where BC.AVAIL ignores the bits. -/
theorem commandWord_encode_bcAvail : commandWord (encode .bcAvail) = BitVec.ofNat 7 (64 + (0 : BitVec 6).toNat) := rfl

/-- With bit 6 clear, the other six bits are `n`, and the bound of R115 decides between BC.READ and a reserved word. -/
theorem decodeCommand_ofNat (n : BitVec 6) :
    decodeCommand (BitVec.ofNat 7 n.toNat) = if n.toNat ≤ 32 then .ok (.bcRead n) else .error .readWidthReserved := by
  have select : (BitVec.ofNat 7 n.toNat).getLsbD 6 = false := by simp
  have low : (BitVec.ofNat 7 n.toNat).extractLsb' 0 6 = n := by
    rw [BitVec.ofNat_toNat, BitVec.extractLsb'_setWidth_of_le (by decide), BitVec.extractLsb'_eq_self]
  simp only [decodeCommand, select, low, Bool.false_eq_true, if_false]

/-- Bit 6 alone selects BC.AVAIL. -/
theorem decodeCommand_ofNat_add (n : BitVec 6) : decodeCommand (BitVec.ofNat 7 (64 + n.toNat)) = .ok .bcAvail := by
  have select : (BitVec.ofNat 7 (64 + n.toNat)).getLsbD 6 = true := by
    rw [BitVec.getLsbD_ofNat, Nat.testBit_two_pow_add_eq (i := 6), Nat.testBit_lt_two_pow n.isLt]; rfl
  rw [decodeCommand, if_pos select]

theorem isCommand_iff (i : Instr) : i.isCommand = true ↔ (∃ n, i = .bcRead n) ∨ i = .bcAvail := by
  cases i <;> simp [Instr.isCommand]

theorem wf_bcRead_iff (n : BitVec 6) : Instr.wf (.bcRead n) = true ↔ n.toNat ≤ 32 := by
  simp [Instr.wf]

/-- Settles O15: the three kinds of word by `decodeCommand_ofNat` and `decodeCommand_ofNat_add`, and the encoder's word of
either command is one of them. -/
theorem cursorCommandWords : Obligations.CursorCommandWords := by
  unfold Obligations.CursorCommandWords
  have read : ∀ n : BitVec 6, n.toNat ≤ 32 → decodeCommand (BitVec.ofNat 7 n.toNat) = .ok (.bcRead n) :=
    fun n hn => by rw [decodeCommand_ofNat, if_pos hn]
  refine ⟨read, fun n hn => ?_, decodeCommand_ofNat_add, fun i hi hwf => ?_⟩
  · rw [decodeCommand_ofNat, if_neg (Nat.not_le.2 hn)]
  · obtain ⟨n, rfl⟩ | rfl := (isCommand_iff i).1 hi
    · rw [commandWord_encode_bcRead, read n ((wf_bcRead_iff n).1 hwf)]
    · rw [commandWord_encode_bcAvail, decodeCommand_ofNat_add]

end Sys2Proof
end

section
/-! The mode indicator as a number (R81): settles O11. -/

namespace Sys2Proof

/-- The row of R81's table for an indicator, its fields read from bit address `k`; the last row stands for 0xF. -/
def indicatorRow (sc : SizeClass) (bit : Nat → Bool) (k : Nat) : Nat → Instr
  | 0x0 => .term
  | 0x1 => numInstr sc (decodeNum sc bit k)
  | 0x2 => alnumInstr sc (decodeAlnum sc bit k)
  | 0x3 => .rsvd3
  | 0x4 => byteInstr sc (decodeBytes sc bit k)
  | 0x5 => .rsvd5
  | 0x6 => .rsvd6
  | 0x7 => decodeEci bit k
  | 0x8 => kanjiInstr sc (decodeKanji sc bit k)
  | 0x9 => .rsvd9
  | 0xA => .rsvd10
  | 0xB => .rsvd11
  | 0xC => .rsvd12
  | 0xD => .rsvd13
  | 0xE => .rsvd14
  | _   => .rsvd15

/-- The decoder matches on four bits; as a number they select the same row. -/
theorem decodeSegment_of_indicator {sc : SizeClass} {bit : Nat → Bool} {j n : Nat} (h : readNat bit j 4 = n) :
    decodeSegment sc bit j = indicatorRow sc bit (j + 4) n := by
  rw [← h, readNat_four]
  unfold decodeSegment
  split <;> simp only [*] <;> rfl

/-- The selector bits of R90 leave four forms. -/
theorem decodeEci_cases (bit : Nat → Bool) (j : Nat) :
    decodeEci bit j = .eciBad ∨ (∃ v, decodeEci bit j = .eci7 v) ∨ (∃ v, decodeEci bit j = .eci14 v) ∨
      ∃ v, decodeEci bit j = .eci21 v := by
  unfold decodeEci
  split_ifs
  · exact .inr (.inl ⟨_, rfl⟩)
  · exact .inr (.inr (.inl ⟨_, rfl⟩))
  · exact .inr (.inr (.inr ⟨_, rfl⟩))
  · exact .inl rfl

/-- Settles O11: each clause is the row of `decodeSegment_of_indicator` at its number, and row 0x7 splits into the four
forms of `decodeEci_cases`. -/
theorem indicatorSelectsTheRow : Obligations.IndicatorSelectsTheRow := by
  unfold Obligations.IndicatorSelectsTheRow
  intro sc bit j
  have row {n : Nat} : readNat bit j 4 = n → decodeSegment sc bit j = indicatorRow sc bit (j + 4) n :=
    decodeSegment_of_indicator
  have eci : readNat bit j 4 = 0x7 → decodeSegment sc bit j = decodeEci bit (j + 4) := row
  refine ⟨row, fun h => ⟨_, row h⟩, fun h => ⟨_, row h⟩, fun h => ⟨_, row h⟩, fun h => ⟨_, row h⟩, fun h => ?_,
    row, row, row, row, row, row, row, row, row, row⟩
  rw [eci h]
  exact decodeEci_cases bit (j + 4)

end Sys2Proof
end

section
/-! The two commands of the Bit Cursor (R111, R114): settles O2 and O4. -/

namespace Sys2Proof.Machine

/-- `n` bits make a number of `n` bits (R53). -/
theorem memRead_lt (s : State) (j n : Nat) : s.memRead j n < 2 ^ n := readNat_lt s.bufBit j n

/-- Up to the bound of R115, BC.READ is `ReadBits(n)` with its value handed to the caller. -/
theorem exec_bcRead_of_le {n : BitVec 6} (h : n.toNat ≤ 32) (s : State) :
    exec (.bcRead n) s = .next ((s.advance n.toNat).answer (s.memRead s.offset n.toNat)) := if_pos h

theorem exec_bcAvail (s : State) : exec .bcAvail s = .next (s.answer s.available) := rfl

/-- `Available()` as R114 writes it: the subtraction that stops at 0 is the clamped difference of integers. -/
theorem available_eq_toNat_max (s : State) :
    s.available = (max 0 (8 * (s.len : Int) - (s.offset : Int))).toNat := by
  rw [State.available]; omega

/-- Settles O2: `exec_bcRead_of_le` writes `reply` and OFFSET only, and `memRead_lt` bounds the value. -/
theorem bcReadReturnsNextBits : Obligations.BcReadReturnsNextBits := by
  unfold Obligations.BcReadReturnsNextBits
  exact fun s n h => ⟨exec_bcRead_of_le h s, memRead_lt s s.offset n.toNat⟩

/-- Settles O4: `exec_bcAvail` writes `reply` only, and the value is R114's by `available_eq_toNat_max`. -/
theorem bcAvailReturnsRemainingBits : Obligations.BcAvailReturnsRemainingBits := by
  unfold Obligations.BcAvailReturnsRemainingBits
  intro s
  rw [exec_bcAvail, State.answer, available_eq_toNat_max]

end Sys2Proof.Machine
end

section
/-! The segments without a length prefix: the ECI forms (R136, R243), the terminator (R133) and the reserved indicators
(R137). Settles O34, O35 and O36. -/

namespace Sys2Proof.Machine

/-! ### The operation each of them is -/

@[simp] theorem exec_eci7 (v : BitVec 7) (s : State) : exec (.eci7 v) s = .next (eciSegment 12 v.toNat s) := rfl

@[simp] theorem exec_eci14 (v : BitVec 14) (s : State) : exec (.eci14 v) s = .next (eciSegment 20 v.toNat s) := rfl

@[simp] theorem exec_eci21 (v : BitVec 21) (s : State) : exec (.eci21 v) s = .next (eciSegment 28 v.toNat s) := rfl

@[simp] theorem exec_eciBad (s : State) : exec .eciBad s = .next (eciSegment 7 (-1) s) := rfl

@[simp] theorem exec_term (s : State) : exec .term s = .next (s.advance 4).finish := rfl

/-- The indicators R92 reserves. -/
def reservedIndicators : List Instr :=
  [.rsvd3, .rsvd5, .rsvd6, .rsvd9, .rsvd10, .rsvd11, .rsvd12, .rsvd13, .rsvd14, .rsvd15]

/-- All ten have one meaning, the 4-bit skip (D6). -/
theorem exec_of_mem_reservedIndicators {i : Instr} (h : i ∈ reservedIndicators) (s : State) :
    exec i s = .next (reservedSegment s) := by
  simp only [reservedIndicators, List.mem_cons, List.not_mem_nil, or_false] at h
  rcases h with rfl | rfl | rfl | rfl | rfl | rfl | rfl | rfl | rfl | rfl <;> rfl

/-! ### What the operations write -/

/-- An ECI segment writes OFFSET and CHUNKS only (R136). -/
theorem eciSegment_eq (bits : Nat) (a : Int) (s : State) :
    eciSegment bits a s = { s with offset := s.offset + bits, chunks := s.chunks ++ [.eci a] } := rfl

/-- The end of a run writes OFFSET and STATUS only (R133, R138). -/
theorem finish_advance_eq (n : Nat) (s : State) :
    (s.advance n).finish = { s with offset := s.offset + n, status := .done } := rfl

/-- A reserved indicator writes OFFSET only (R137). -/
theorem reservedSegment_eq (s : State) : reservedSegment s = { s with offset := s.offset + 4 } := rfl

/-! ### The statements -/

/-- Settles O34: each form is an `eciSegment` of its own length and value, which writes what `eciSegment_eq` says. -/
theorem eciSegmentResult : Obligations.EciSegmentResult := by
  unfold Obligations.EciSegmentResult
  intro s
  refine ⟨fun v => ?_, fun v => ?_, fun v => ?_, ?_⟩
  · rw [exec_eci7, eciSegment_eq]
  · rw [exec_eci14, eciSegment_eq]
  · rw [exec_eci21, eciSegment_eq]
  · rw [exec_eciBad, eciSegment_eq]

/-- Settles O35: TERM is an advance by its indicator's four bits and `finish`. -/
theorem terminatorEndsTheRun : Obligations.TerminatorEndsTheRun := by
  unfold Obligations.TerminatorEndsTheRun
  intro s
  rw [exec_term, finish_advance_eq]

/-- Settles O36: by `exec_of_mem_reservedIndicators` all ten are `reservedSegment`, which writes OFFSET only. -/
theorem reservedIndicatorsAreNoOperations : Obligations.ReservedIndicatorsAreNoOperations := by
  unfold Obligations.ReservedIndicatorsAreNoOperations
  intro s i hi
  rw [exec_of_mem_reservedIndicators hi, reservedSegment_eq]

end Sys2Proof.Machine
end

section
/-! A numeric segment whose groups are in range (R162 to R166): settles O27. -/

namespace Sys2Proof.Machine

open Claims

/-! ### The digits -/

theorem length_restDigits (r : NumRest) : (restDigits r).length = r.count := by cases r <;> rfl

/-- Three digits for each group (R162), then those of the rest. -/
theorem length_digits (d : NumData) : (digits d).length = d.count := by
  simp [digits, NumData.count, length_restDigits, Nat.mul_comm]

/-! ### UnpackNumeric on groups in range -/

/-- The rest of a segment adds its digits; after the last group of three nothing is read (R163 to R165). -/
theorem unpackNumRest_ok {r : NumRest} (h : restInRange r) (k : Work) :
    unpackNumRest r k = .ok { used := k.used + r.bits,
                              text := k.text ++ (emitDigits (restDigits r)).text,
                              bytes := k.bytes ++ (emitDigits (restDigits r)).bytes } := by
  cases r with
  | none => simp [unpackNumRest, NumRest.bits, restDigits, emitDigits]
  | one g => rw [unpackNumRest, unpackFields, emitGroup1_ok h]; rfl
  | two g => rw [unpackNumRest, unpackFields, emitGroup2_ok h]; rfl

/-- The groups emit their digits one after another, and the rest goes on from there. -/
theorem unpackNumeric_ok {d : NumData} (hgroups : ∀ g ∈ d.groups, g.toNat < 1000) (hrest : restInRange d.rest)
    (sc : SizeClass) :
    unpackNumeric sc d = .ok { used := numLength sc d,
                               text := (emitDigits (digits d)).text,
                               bytes := (emitDigits (digits d)).bytes } := by
  have groups := unpackFields_ok (fun g hg => emitGroup3_ok (hgroups g hg)) (Work.start .num sc)
  simp only [unpackNumeric, groups, unpackNumRest_ok hrest]
  simp [Work.start, numLength, digits, emitDigits, List.map_flatMap]

/-! ### The statement -/

/-- A content segment that completes writes OFFSET, CHUNKS, TEXT and BYTES only (R135). -/
theorem accumulate_advance_eq (n : Nat) (c : Chunk) (t : List CodeUnit) (b : List Byte) (s : State) :
    (s.advance n).accumulate c t b =
      { s with offset := s.offset + n, chunks := s.chunks ++ [c], text := s.text ++ t, bytes := s.bytes ++ b } := rfl

/-- Settles O27: UnpackNumeric answers what `unpackNumeric_ok` says, closing the segment writes it as
`accumulate_advance_eq` says, and the digits are counted by `length_digits`. -/
theorem numericSegmentResult : Obligations.NumericSegmentResult := by
  unfold Obligations.NumericSegmentResult
  intro sc d s hgroups hrest
  refine ⟨?_, length_digits d⟩
  rw [exec_numInstr, numericSegment, closeSegment_ok (unpackNumeric_ok hgroups hrest sc), accumulate_advance_eq]
  rfl

end Sys2Proof.Machine
end

section
/-! The alphabet by its closed form (R181): settles O38. -/

namespace Sys2Proof.Machine

/-- Indices 0 to 9 are the digits. -/
theorem alphabet_getD_digit : ∀ k < 10, alphabet.getD k 0 = BitVec.ofNat 16 (0x30 + k) := by decide

/-- The letters stand after the ten digits. -/
theorem alphabet_getD_letter : ∀ k < 26, alphabet.getD (10 + k) 0 = BitVec.ofNat 16 (0x41 + k) := by decide

/-- The nine symbols stand after the digits and the letters. -/
theorem alphabet_drop_symbols : alphabet.drop 36 = [0x20, 0x24, 0x25, 0x2A, 0x2B, 0x2D, 0x2E, 0x2F, 0x3A] := rfl

/-- Settles O38: the digits, the letters counted from index 10, and the symbols. -/
theorem alphabetTable : Obligations.AlphabetTable := by
  unfold Obligations.AlphabetTable
  refine ⟨length_alphabet, fun i hi => alphabet_getD_digit i (by omega), fun i hlo hhi => ?_, alphabet_drop_symbols⟩
  obtain ⟨k, rfl⟩ := Nat.exists_eq_add_of_le hlo
  rw [Nat.add_sub_cancel_left]
  exact alphabet_getD_letter k (by omega)

end Sys2Proof.Machine
end

section
/-! Alphanumeric segments (R183 to R186): one whose indices are in the table, and the first index that is not. Settles O29
and O30. -/

namespace Sys2Proof.Machine

open Claims

/-! ### The characters -/

/-- Two characters for each pair (R183), one for the single (R184). -/
theorem length_indices (d : AlnumData) : (indices d).length = d.count := by
  cases hs : d.single <;> simp [indices, AlnumData.count, singleCount, hs, Nat.mul_comm]

/-- The characters of a list of indices and their low bytes (R186). -/
def emitIndices (is : List Nat) : Emit :=
  { text := is.map fun i => alphabet.getD i 0, bytes := is.map fun i => BitVec.ofNat 8 ((alphabet.getD i 0).toNat % 256) }

/-- The low byte of a code unit is the unit modulo 256. -/
theorem setWidth_eight_eq_ofNat_mod (u : CodeUnit) : u.setWidth 8 = BitVec.ofNat 8 (u.toNat % 256) := by
  apply BitVec.eq_of_toNat_eq
  simp

theorem emitSingle_eq_emitIndices {i : BitVec 6} (h : i.toNat ≤ 44) : emitSingle i = .ok (emitIndices [i.toNat]) := by
  rw [emitSingle, emitIndex_ok (by omega), setWidth_eight_eq_ofNat_mod]
  rfl

/-- Only the first index of a pair can be outside the table: the second is a remainder by 45 (R185). -/
theorem emitPair_eq_emitIndices {p : BitVec 11} (h : p.toNat / 45 ≤ 44) :
    emitPair p = .ok (emitIndices [p.toNat / 45, p.toNat % 45]) := by
  rw [emitPair_ok (by omega), setWidth_eight_eq_ofNat_mod, setWidth_eight_eq_ofNat_mod]
  rfl

/-! ### UnpackAlphanumeric -/

/-- The pairs of a segment, when all are in the table: where the walk over them stands before the single. -/
theorem unpackFields_emitPair_ok {ps : List (BitVec 11)} (h : ∀ p ∈ ps, p.toNat / 45 ≤ 44) (sc : SizeClass) :
    unpackFields emitPair ps (Work.start .alnum sc) =
      .ok { used := 4 + countWidth .alnum sc + 11 * ps.length,
            text := (emitIndices (indices ⟨ps, none⟩)).text,
            bytes := (emitIndices (indices ⟨ps, none⟩)).bytes } := by
  rw [unpackFields_ok (fun p hp => emitPair_eq_emitIndices (h p hp))]
  simp [Work.start, indices, emitIndices, List.map_flatMap]

/-- The pairs emit their characters one after another, and the single, where there is one, adds its own. -/
theorem unpackAlphanumeric_ok {d : AlnumData} (h : ∀ i ∈ indices d, i ≤ 44) (sc : SizeClass) :
    unpackAlphanumeric sc d = .ok { used := alnumLength sc d,
                                    text := (emitIndices (indices d)).text,
                                    bytes := (emitIndices (indices d)).bytes } := by
  obtain ⟨ps, single⟩ := d
  have hpairs : ∀ p ∈ ps, p.toNat / 45 ≤ 44 := fun p hp =>
    h _ (List.mem_append_left _ (List.mem_flatMap.2 ⟨p, hp, List.mem_cons_self⟩))
  simp only [unpackAlphanumeric, unpackFields_emitPair_ok hpairs]
  cases single with
  | none => rfl
  | some i =>
    have hi : i.toNat ≤ 44 := h _ (List.mem_append_right _ List.mem_cons_self)
    simp [unpackFields, emitSingle_eq_emitIndices hi, emitIndices, indices, alnumLength, singleCount]

/-- The first pair whose first index is outside the table has been read when the fault is taken; nothing after it has. -/
theorem unpackAlphanumeric_error_pair {pre : List (BitVec 11)} {p : BitVec 11} (hpre : ∀ u ∈ pre, u.toNat / 45 ≤ 44)
    (hp : 44 < p.toNat / 45) (post : List (BitVec 11)) (single : Option (BitVec 6)) (sc : SizeClass) :
    unpackAlphanumeric sc ⟨pre ++ p :: post, single⟩ =
      .error (.alnumIndex, 4 + countWidth .alnum sc + 11 * (pre.length + 1)) := by
  have good : ∀ u ∈ pre, ∃ e, emitPair u = .ok e := fun u hu => ⟨_, emitPair_eq_emitIndices (hpre u hu)⟩
  rw [unpackAlphanumeric, unpackFields_error good (emitPair_error hp)]
  rfl

/-- A single outside the table has been read when the fault is taken. -/
theorem unpackAlphanumeric_error_single {ps : List (BitVec 11)} {i : BitVec 6} (hps : ∀ u ∈ ps, u.toNat / 45 ≤ 44)
    (hi : 44 < i.toNat) (sc : SizeClass) :
    unpackAlphanumeric sc ⟨ps, some i⟩ = .error (.alnumIndex, 4 + countWidth .alnum sc + 11 * ps.length + 6) := by
  have bad : emitSingle i = .error .alnumIndex := emitIndex_error hi
  simp only [unpackAlphanumeric, unpackFields_emitPair_ok hps, Option.toList_some, unpackFields, bad]

/-! ### The statements -/

/-- Settles O29: UnpackAlphanumeric answers what `unpackAlphanumeric_ok` says, closing the segment writes it as
`accumulate_advance_eq` says, and the characters are counted by `length_indices`. -/
theorem alphanumericSegmentResult : Obligations.AlphanumericSegmentResult := by
  unfold Obligations.AlphanumericSegmentResult
  intro sc d s h
  refine ⟨?_, length_indices d⟩
  rw [exec_alnumInstr, alphanumericSegment, closeSegment_ok (unpackAlphanumeric_ok h sc), accumulate_advance_eq]
  rfl

/-- A content segment that faults writes OFFSET, CAUSE and STATUS only (R266, R271). -/
theorem raise_advance_eq (n : Nat) (c : Cause) (s : State) :
    (s.advance n).raise c = { s with offset := s.offset + n, cause := c, status := .fault } := rfl

/-- An alphanumeric segment whose unpacking faults after `n` bits: the fault is the only effect besides OFFSET. -/
theorem exec_alnumInstr_of_error {sc : SizeClass} {d : AlnumData} {c : Cause} {n : Nat}
    (h : unpackAlphanumeric sc d = .error (c, n)) (s : State) :
    ∃ t, exec (alnumInstr sc d) s = .next t ∧
      sameButLists { s with offset := s.offset + n, cause := c, status := .fault } t := by
  refine ⟨(s.advance n).raise c, ?_, ?_⟩
  · rw [exec_alnumInstr, alphanumericSegment, closeSegment_error h]
  · rw [raise_advance_eq]
    rfl

/-- Settles O30: a bad pair by `unpackAlphanumeric_error_pair`, a bad single by `unpackAlphanumeric_error_single`. -/
theorem alphanumericFaultAtFirstBadIndex : Obligations.AlphanumericFaultAtFirstBadIndex := by
  unfold Obligations.AlphanumericFaultAtFirstBadIndex
  refine ⟨fun sc pre post p single s hpre hp => ?_, fun sc ps i s hps hi => ?_⟩
  · exact exec_alnumInstr_of_error (unpackAlphanumeric_error_pair hpre hp post single sc) s
  · exact exec_alnumInstr_of_error (unpackAlphanumeric_error_single hps hi sc) s

end Sys2Proof.Machine
end

section
/-! A byte segment completes under every decoder (R200, R202, R203, R206): settles O31. -/

namespace Sys2Proof.Machine

/-- Where UTF8_DECODE accepts the list, the text portion is what it answers (R203). -/
theorem utf8Text_of_eq_some {d : Utf8Decoder} {bs : List Byte} {t : List CodeUnit} (h : utf8Decode d bs = some t) :
    utf8Text d bs = t := by rw [utf8Text, h, Option.getD_some]

/-- Where UTF8_DECODE finds the list invalid, the text portion degrades to the empty string (R203, D26). -/
theorem utf8Text_of_eq_none {d : Utf8Decoder} {bs : List Byte} (h : utf8Decode d bs = none) : utf8Text d bs = [] := by
  rw [utf8Text, h, Option.getD_none]

/-- UnpackByte has no fault, so a byte segment only ever completes, and only its text depends on the decoder. -/
theorem byteSegment_eq (sc : SizeClass) (bs : List Byte) (s : State) :
    byteSegment sc bs s = { s with offset := s.offset + byteLength sc bs,
                                   chunks := s.chunks ++ [.byte bs (utf8Text s.utf8 bs)],
                                   text := s.text ++ utf8Text s.utf8 bs,
                                   bytes := s.bytes ++ bs } := by
  rw [byteSegment, closeSegment_ok (unpackByte_eq s.utf8 sc bs), accumulate_advance_eq]

/-- Settles O31: a byte segment writes what `byteSegment_eq` says, and its text is `t` whether UTF8_DECODE accepts the list
or not. -/
theorem byteSegmentResult : Obligations.ByteSegmentResult := by
  unfold Obligations.ByteSegmentResult
  intro sc bs s t h
  have text : utf8Text s.utf8 bs = t := by
    obtain hvalid | ⟨hinvalid, rfl⟩ := h
    · exact utf8Text_of_eq_some hvalid
    · exact utf8Text_of_eq_none hinvalid
  rw [exec_byteInstr, byteSegment_eq, text, byteLength]

end Sys2Proof.Machine
end

section
/-! A kanji segment whose codes are in SJIS_TABLE (R222, R224, R225, R227): settles O32. -/

namespace Sys2Proof.Machine

open Claims

/-! ### The code and its bytes -/

/-- The low byte of R222 leaves the high byte's bits clear, so the `or` is a sum over the naturals. -/
theorem kanjiCode_eq_ofNat_shiftJis (k : BitVec 13) : kanjiCode k = BitVec.ofNat 16 (shiftJis k) := by
  have or_eq_add : (k.toNat / 192) <<< 8 ||| k.toNat % 192 = 256 * (k.toNat / 192) + k.toNat % 192 := by
    rw [Nat.shiftLeft_eq, Nat.mul_comm, ← Nat.two_pow_add_eq_or_of_lt (by omega)]
  simp only [kanjiCode, shiftJis, or_eq_add]

/-- The high byte of a code (R224). -/
theorem setWidth_eight_ofNat_shiftRight (n : Nat) :
    (BitVec.ofNat 16 n >>> 8).setWidth 8 = BitVec.ofNat 8 (n / 256) := by
  apply BitVec.eq_of_toNat_eq
  simp only [BitVec.toNat_setWidth, BitVec.toNat_ushiftRight, BitVec.toNat_ofNat, Nat.shiftRight_eq_div_pow]
  omega

/-- The low byte of a code (R224). -/
theorem setWidth_eight_ofNat (n : Nat) : (BitVec.ofNat 16 n).setWidth 8 = BitVec.ofNat 8 (n % 256) := by
  apply BitVec.eq_of_toNat_eq
  simp only [BitVec.toNat_setWidth, BitVec.toNat_ofNat]
  omega

/-- The high byte, then the low byte, of a value's code (R224). -/
def shiftJisBytes (k : BitVec 13) : List Byte :=
  [BitVec.ofNat 8 (shiftJis k / 256), BitVec.ofNat 8 (shiftJis k % 256)]

theorem emitKanji_of_lookup {table : List (CodeUnit × CodeUnit)} {k : BitVec 13} {u : CodeUnit}
    (h : table.lookup (BitVec.ofNat 16 (shiftJis k)) = some u) :
    emitKanji table k = .ok { text := [u], bytes := shiftJisBytes k } := by
  rw [← kanjiCode_eq_ofNat_shiftJis] at h
  rw [emitKanji_ok h, kanjiCode_eq_ofNat_shiftJis, setWidth_eight_ofNat_shiftRight, setWidth_eight_ofNat]
  rfl

/-! ### UnpackKanji -/

/-- The values emit their bytes and units one after another (R227). -/
theorem unpackKanji_ok {table : List (CodeUnit × CodeUnit)} {ks : List (BitVec 13)} {unit : BitVec 13 → CodeUnit}
    (h : ∀ k ∈ ks, table.lookup (BitVec.ofNat 16 (shiftJis k)) = some (unit k)) (sc : SizeClass) :
    unpackKanji table sc ks = .ok { used := kanjiLength sc ks,
                                    text := ks.map unit,
                                    bytes := ks.flatMap shiftJisBytes } := by
  rw [unpackKanji, unpackFields_ok fun k hk => emitKanji_of_lookup (h k hk)]
  simp [Work.start, kanjiLength, List.map_eq_flatMap]

/-- Settles O32: UnpackKanji answers what `unpackKanji_ok` says, and closing the segment writes it as
`accumulate_advance_eq` says. -/
theorem kanjiSegmentResult : Obligations.KanjiSegmentResult := by
  unfold Obligations.KanjiSegmentResult
  intro sc ks s unit h
  rw [exec_kanjiInstr, kanjiSegment, closeSegment_ok (unpackKanji_ok h sc), accumulate_advance_eq]
  rfl

end Sys2Proof.Machine
end

section
/-! Numeric and kanji segments at their first bad field (R261, R262, R271): settles O28 and O33. -/

namespace Sys2Proof.Machine

open Claims

/-- A content segment that is closed on a fault moves OFFSET past what was read and takes the fault: no other field
outside the result lists changes (R266, R271). -/
theorem sameButLists_closeSegment_error {u : Unpacked} {c : Cause} {n : Nat} (h : u = .error (c, n))
    (chunk : Work → Chunk) (s : State) :
    sameButLists { s with offset := s.offset + n, cause := c, status := .fault } (closeSegment chunk u s) := by
  rw [closeSegment_error h, raise_advance_eq]
  rfl

/-! ### UnpackNumeric -/

/-- The first group of three out of range has been read when the fault is taken; nothing after it has (R162). -/
theorem unpackNumeric_error_group3 {pre : List (BitVec 10)} {g : BitVec 10} (hpre : ∀ u ∈ pre, u.toNat < 1000)
    (hg : 1000 ≤ g.toNat) (post : List (BitVec 10)) (rest : NumRest) (sc : SizeClass) :
    unpackNumeric sc ⟨pre ++ g :: post, rest⟩ =
      .error (.numGroup3, 4 + countWidth .num sc + 10 * (pre.length + 1)) := by
  have good : ∀ u ∈ pre, ∃ e, emitGroup3 u = .ok e := fun u hu => ⟨_, emitGroup3_ok (hpre u hu)⟩
  rw [unpackNumeric, unpackFields_error good (emitGroup3_error hg)]
  rfl

/-- Groups of three in range leave the rest to be judged, after just their bits. -/
theorem unpackNumeric_eq_unpackNumRest {gs : List (BitVec 10)} (hgs : ∀ u ∈ gs, u.toNat < 1000) (rest : NumRest)
    (sc : SizeClass) :
    ∃ k, k.used = 4 + countWidth .num sc + 10 * gs.length ∧ unpackNumeric sc ⟨gs, rest⟩ = unpackNumRest rest k := by
  have groups := unpackFields_ok (fun u hu => emitGroup3_ok (hgs u hu)) (Work.start .num sc)
  refine ⟨_, ?_, by rw [unpackNumeric, groups]⟩
  rfl

/-- A last group of two digits out of range has been read when the fault is taken (R163). -/
theorem unpackNumeric_error_group2 {gs : List (BitVec 10)} {g : BitVec 7} (hgs : ∀ u ∈ gs, u.toNat < 1000)
    (hg : 100 ≤ g.toNat) (sc : SizeClass) :
    unpackNumeric sc ⟨gs, .two g⟩ = .error (.numGroup2, 4 + countWidth .num sc + 10 * gs.length + 7) := by
  obtain ⟨k, hused, h⟩ := unpackNumeric_eq_unpackNumRest hgs (.two g) sc
  rw [h, unpackNumRest, unpackFields, emitGroup2_error hg, ← hused]

/-- A last group of one digit out of range has been read when the fault is taken (R164). -/
theorem unpackNumeric_error_group1 {gs : List (BitVec 10)} {g : BitVec 4} (hgs : ∀ u ∈ gs, u.toNat < 1000)
    (hg : 10 ≤ g.toNat) (sc : SizeClass) :
    unpackNumeric sc ⟨gs, .one g⟩ = .error (.numGroup1, 4 + countWidth .num sc + 10 * gs.length + 4) := by
  obtain ⟨k, hused, h⟩ := unpackNumeric_eq_unpackNumRest hgs (.one g) sc
  rw [h, unpackNumRest, unpackFields, emitGroup1_error hg, ← hused]

/-! ### UnpackKanji -/

/-- The first code that the table lacks has been read when the fault is taken; nothing after it has (R226). -/
theorem unpackKanji_error {table : List (CodeUnit × CodeUnit)} {pre : List (BitVec 13)} {k : BitVec 13}
    (hpre : ∀ u ∈ pre, (table.lookup (BitVec.ofNat 16 (shiftJis u))).isSome)
    (hk : table.lookup (BitVec.ofNat 16 (shiftJis k)) = none) (post : List (BitVec 13)) (sc : SizeClass) :
    unpackKanji table sc (pre ++ k :: post) =
      .error (.kanjiUnmapped, 4 + countWidth .kanji sc + 13 * (pre.length + 1)) := by
  have good : ∀ u ∈ pre, ∃ e, emitKanji table u = .ok e := fun u hu => by
    obtain ⟨unit, hunit⟩ := Option.isSome_iff_exists.1 (hpre u hu)
    exact ⟨_, emitKanji_of_lookup hunit⟩
  have bad : emitKanji table k = .error .kanjiUnmapped := emitKanji_error (by rwa [kanjiCode_eq_ofNat_shiftJis])
  rw [unpackKanji, unpackFields_error good bad]
  rfl

/-! ### The statements -/

/-- A numeric segment whose unpacking faults after `n` bits: the fault is the only effect besides OFFSET. -/
theorem exec_numInstr_of_error {sc : SizeClass} {d : NumData} {c : Cause} {n : Nat}
    (h : unpackNumeric sc d = .error (c, n)) (s : State) :
    ∃ t, exec (numInstr sc d) s = .next t ∧
      sameButLists { s with offset := s.offset + n, cause := c, status := .fault } t :=
  ⟨_, exec_numInstr sc d s, sameButLists_closeSegment_error h _ s⟩

/-- Settles O28: the groups of three, two and one digits by `unpackNumeric_error_group3`, `unpackNumeric_error_group2` and
`unpackNumeric_error_group1`. -/
theorem numericFaultAtFirstBadGroup : Obligations.NumericFaultAtFirstBadGroup := by
  unfold Obligations.NumericFaultAtFirstBadGroup
  refine ⟨fun sc pre post g rest s hpre hg => ?_, fun sc gs g s hgs hg => ?_, fun sc gs g s hgs hg => ?_⟩
  · exact exec_numInstr_of_error (unpackNumeric_error_group3 hpre hg post rest sc) s
  · exact exec_numInstr_of_error (unpackNumeric_error_group2 hgs hg sc) s
  · exact exec_numInstr_of_error (unpackNumeric_error_group1 hgs hg sc) s

/-- Settles O33: UnpackKanji answers what `unpackKanji_error` says, and closing the segment takes that fault as
`sameButLists_closeSegment_error` says. -/
theorem kanjiFaultAtFirstUnmappedCode : Obligations.KanjiFaultAtFirstUnmappedCode := by
  unfold Obligations.KanjiFaultAtFirstUnmappedCode
  intro sc pre post k s hpre hk
  exact ⟨_, exec_kanjiInstr sc _ s, sameButLists_closeSegment_error (unpackKanji_error hpre hk post sc) _ s⟩

end Sys2Proof.Machine
end

section
/-! The segments of a stream, decoded from their bits and encoded to them (R80 to R94). Settles O12, O13, O14 and
O16. -/

namespace Sys2Proof

open Machine

/-! ### The segments by row -/

@[simp] theorem encode_numInstr (sc : SizeClass) (d : NumData) : encode (numInstr sc d) = encodeNum sc d := by
  cases sc <;> rfl

@[simp] theorem encode_alnumInstr (sc : SizeClass) (d : AlnumData) : encode (alnumInstr sc d) = encodeAlnum sc d := by
  cases sc <;> rfl

@[simp] theorem encode_byteInstr (sc : SizeClass) (bs : List Byte) : encode (byteInstr sc bs) = encodeByte sc bs := by
  cases sc <;> rfl

@[simp] theorem encode_kanjiInstr (sc : SizeClass) (ks : List (BitVec 13)) :
    encode (kanjiInstr sc ks) = encodeKanji sc ks := by cases sc <;> rfl

@[simp] theorem wf_numInstr (sc : SizeClass) (d : NumData) : (numInstr sc d).wf = countFits .num sc d.count := by
  cases sc <;> rfl

@[simp] theorem wf_alnumInstr (sc : SizeClass) (d : AlnumData) :
    (alnumInstr sc d).wf = countFits .alnum sc d.count := by cases sc <;> rfl

@[simp] theorem wf_byteInstr (sc : SizeClass) (bs : List Byte) :
    (byteInstr sc bs).wf = countFits .byte sc bs.length := by cases sc <;> rfl

@[simp] theorem wf_kanjiInstr (sc : SizeClass) (ks : List (BitVec 13)) :
    (kanjiInstr sc ks).wf = countFits .kanji sc ks.length := by cases sc <;> rfl

@[simp] theorem inStream_numInstr (sc : SizeClass) (d : NumData) : (numInstr sc d).inStream sc = true := by
  cases sc <;> rfl

@[simp] theorem inStream_alnumInstr (sc : SizeClass) (d : AlnumData) : (alnumInstr sc d).inStream sc = true := by
  cases sc <;> rfl

@[simp] theorem inStream_byteInstr (sc : SizeClass) (bs : List Byte) : (byteInstr sc bs).inStream sc = true := by
  cases sc <;> rfl

@[simp] theorem inStream_kanjiInstr (sc : SizeClass) (ks : List (BitVec 13)) :
    (kanjiInstr sc ks).inStream sc = true := by cases sc <;> rfl

@[simp] theorem length_numInstr (sc : SizeClass) (d : NumData) : (numInstr sc d).length = numLength sc d := by
  cases sc <;> rfl

@[simp] theorem length_alnumInstr (sc : SizeClass) (d : AlnumData) : (alnumInstr sc d).length = alnumLength sc d := by
  cases sc <;> rfl

@[simp] theorem length_byteInstr (sc : SizeClass) (bs : List Byte) : (byteInstr sc bs).length = byteLength sc bs := by
  cases sc <;> rfl

@[simp] theorem length_kanjiInstr (sc : SizeClass) (ks : List (BitVec 13)) :
    (kanjiInstr sc ks).length = kanjiLength sc ks := by cases sc <;> rfl

theorem length_of_mem_reservedIndicators : ∀ i ∈ reservedIndicators, i.length = 4 := by decide

/-- The mode indicator that an instruction's encoding begins with, as a number (R80, R81). -/
def Instr.indicator (i : Instr) : Nat := readNat (bitOfList (encode i)) 0 4

@[simp] theorem indicator_numInstr (sc : SizeClass) (d : NumData) : (numInstr sc d).indicator = 0x1 := by
  cases sc <;> rfl

@[simp] theorem indicator_alnumInstr (sc : SizeClass) (d : AlnumData) : (alnumInstr sc d).indicator = 0x2 := by
  cases sc <;> rfl

@[simp] theorem indicator_byteInstr (sc : SizeClass) (bs : List Byte) : (byteInstr sc bs).indicator = 0x4 := by
  cases sc <;> rfl

@[simp] theorem indicator_kanjiInstr (sc : SizeClass) (ks : List (BitVec 13)) :
    (kanjiInstr sc ks).indicator = 0x8 := by cases sc <;> rfl

/-- The rows of R81 that a stream of a size class can hold, their fields free. -/
inductive Row (sc : SizeClass) : Instr → Prop
  | num (d : NumData) : Row sc (numInstr sc d)
  | alnum (d : AlnumData) : Row sc (alnumInstr sc d)
  | byte (bs : List Byte) : Row sc (byteInstr sc bs)
  | kanji (ks : List (BitVec 13)) : Row sc (kanjiInstr sc ks)
  | eci7 (v : BitVec 7) : Row sc (.eci7 v)
  | eci14 (v : BitVec 14) : Row sc (.eci14 v)
  | eci21 (v : BitVec 21) : Row sc (.eci21 v)
  | eciBad : Row sc .eciBad
  | term : Row sc .term
  | reserved {i : Instr} (h : i ∈ reservedIndicators) : Row sc i

theorem eq_of_inStream {sc sc' : SizeClass} {i : Instr} (h : i.inStream sc = true) (hi : i.sizeClass? = some sc') :
    sc = sc' := by
  have own := (Bool.and_eq_true_iff.1 h).2
  rw [hi] at own
  exact (Option.some.inj (beq_iff_eq.1 own)).symm

theorem row_of_inStream {sc : SizeClass} {i : Instr} (h : i.inStream sc = true) : Row sc i := by
  cases i with
  | numSc0 d | numSc1 d | numSc2 d => obtain rfl := eq_of_inStream h rfl; exact .num d
  | alnumSc0 d | alnumSc1 d | alnumSc2 d => obtain rfl := eq_of_inStream h rfl; exact .alnum d
  | byteSc0 bs | byteSc1 bs | byteSc2 bs => obtain rfl := eq_of_inStream h rfl; exact .byte bs
  | kanjiSc0 ks | kanjiSc1 ks | kanjiSc2 ks => obtain rfl := eq_of_inStream h rfl; exact .kanji ks
  | eci7 v => exact .eci7 v
  | eci14 v => exact .eci14 v
  | eci21 v => exact .eci21 v
  | eciBad => exact .eciBad
  | bcRead n | bcAvail => cases h
  | term => exact .term
  | _ => exact .reserved (by decide)

/-! ### From the bits to the segment -/

/-- The encoding of an instruction has the length of R91 and R97. -/
theorem length_encode (i : Instr) : (encode i).length = i.length := by
  cases i <;> simp [encode, Instr.length, Laws.EncodeLength.encodeNum_length, Laws.EncodeLength.encodeAlnum_length,
    Laws.EncodeLength.encodeByte_length, Laws.EncodeLength.encodeKanji_length]

theorem four_le_length (i : Instr) : 4 ≤ i.length := by
  cases i <;> simp [Instr.length, four_le_numLength, four_le_alnumLength, four_le_byteLength, four_le_kanjiLength]

theorem reads_drop {bit : Nat → Bool} {j n : Nat} {l : List Bool} (h : Reads bit j l) (hn : n ≤ l.length) :
    Reads bit (j + n) (l.drop n) := by
  rw [← List.take_append_drop n l, reads_append, List.length_take_of_le hn] at h
  exact h.2

/-- A source that begins with an instruction's bits decodes to the row of its indicator. -/
theorem decodeSegment_of_reads {bit : Nat → Bool} {j : Nat} {i : Instr} (h : Reads bit j (encode i)) (sc : SizeClass) :
    decodeSegment sc bit j = indicatorRow sc bit (j + 4) i.indicator := by
  refine decodeSegment_of_indicator (readNat_congr fun k hk => ?_)
  have hlen := four_le_length i
  rw [← length_encode] at hlen
  rw [h k (by omega), Nat.zero_add, bitOfList]

/-- A reserved indicator is the row it selects, whatever follows. -/
theorem indicatorRow_of_mem_reservedIndicators {i : Instr} (h : i ∈ reservedIndicators) (sc : SizeClass)
    (bit : Nat → Bool) (k : Nat) : indicatorRow sc bit k i.indicator = i := by
  simp only [reservedIndicators, List.mem_cons, List.not_mem_nil, or_false] at h
  rcases h with rfl | rfl | rfl | rfl | rfl | rfl | rfl | rfl | rfl | rfl <;> rfl

theorem decodeEci_of_reads_eci7 {bit : Nat → Bool} {j : Nat} {v : BitVec 7}
    (h : Reads bit j (false :: bitsOf 7 v.toNat)) : decodeEci bit j = .eci7 v := by
  obtain ⟨h0, hv⟩ := reads_cons.1 h
  rw [decodeEci, if_pos h0, field_of_reads hv]

theorem decodeEci_of_reads_eci14 {bit : Nat → Bool} {j : Nat} {v : BitVec 14}
    (h : Reads bit j (true :: false :: bitsOf 14 v.toNat)) : decodeEci bit j = .eci14 v := by
  obtain ⟨h0, h1, hv⟩ := by simpa only [reads_cons] using h
  simp [decodeEci, h0, h1, field_of_reads hv]

theorem decodeEci_of_reads_eci21 {bit : Nat → Bool} {j : Nat} {v : BitVec 21}
    (h : Reads bit j (true :: true :: false :: bitsOf 21 v.toNat)) : decodeEci bit j = .eci21 v := by
  obtain ⟨h0, h1, h2, hv⟩ := by simpa only [reads_cons] using h
  simp [decodeEci, h0, h1, h2, field_of_reads hv]

theorem decodeEci_of_reads_eciBad {bit : Nat → Bool} {j : Nat} (h : Reads bit j [true, true, true]) :
    decodeEci bit j = .eciBad := by
  obtain ⟨h0, h1, h2, -⟩ := by simpa only [reads_cons] using h
  simp [decodeEci, h0, h1, h2]

/-- Decoding the bits of a segment gives it back: its indicator selects its row, and after the four bits of the
indicator the row's field decoder reads back what the encoder wrote. -/
theorem decodeSegment_encode {sc : SizeClass} {i : Instr} {bit : Nat → Bool} {j : Nat} (hwf : i.wf = true)
    (hsc : i.inStream sc = true) (h : Reads bit j (encode i)) : decodeSegment sc bit j = i := by
  rw [decodeSegment_of_reads h]
  have hlen := four_le_length i
  rw [← length_encode] at hlen
  have payload := reads_drop h hlen
  cases row_of_inStream hsc with
  | num d =>
    rw [encode_numInstr] at payload
    rw [wf_numInstr] at hwf
    rw [indicator_numInstr]
    exact congrArg (numInstr sc) (decodeNum_of_reads (lt_of_countFits hwf) payload)
  | alnum d =>
    rw [encode_alnumInstr] at payload
    rw [wf_alnumInstr] at hwf
    rw [indicator_alnumInstr]
    exact congrArg (alnumInstr sc) (decodeAlnum_of_reads (lt_of_countFits hwf) payload)
  | byte bs =>
    rw [encode_byteInstr] at payload
    rw [wf_byteInstr] at hwf
    rw [indicator_byteInstr]
    exact congrArg (byteInstr sc) (decodeBytes_of_reads (lt_of_countFits hwf) payload)
  | kanji ks =>
    rw [encode_kanjiInstr] at payload
    rw [wf_kanjiInstr] at hwf
    rw [indicator_kanjiInstr]
    exact congrArg (kanjiInstr sc) (decodeKanji_of_reads (lt_of_countFits hwf) payload)
  | eci7 v => exact decodeEci_of_reads_eci7 payload
  | eci14 v => exact decodeEci_of_reads_eci14 payload
  | eci21 v => exact decodeEci_of_reads_eci21 payload
  | eciBad => exact decodeEci_of_reads_eciBad payload
  | term => rfl
  | reserved hmem => exact indicatorRow_of_mem_reservedIndicators hmem sc bit (j + 4)

/-- Settles O12: `Reads` is the statement's premise, and `decodeSegment_encode` its conclusion. -/
theorem decodingAnEncodedSegmentGivesItBack : Obligations.DecodingAnEncodedSegmentGivesItBack := by
  unfold Obligations.DecodingAnEncodedSegmentGivesItBack
  exact fun sc i bit j hwf hsc h => decodeSegment_encode hwf hsc h

/-! ### From the segment to its bits -/

theorem countFits_of_lt {m : ContentMode} {sc : SizeClass} {c : Nat} (h : c < 2 ^ countWidth m sc) :
    countFits m sc c = true := decide_eq_true h

theorem reads_decodeNum (sc : SizeClass) (bit : Nat → Bool) (j : Nat) :
    Reads bit j (bitsOf (countWidth .num sc) (decodeNum sc bit j).count ++ fieldBits (decodeNum sc bit j).groups ++
      (decodeNum sc bit j).rest.encode) := by
  rw [decodeNum_count, reads_append, reads_append]
  simp only [List.length_append, length_bitsOf, length_fieldBits, ← Nat.add_assoc]
  refine ⟨⟨reads_readNat bit j _, reads_fields bit 10 _ _⟩, ?_⟩
  simp only [decodeNum, length_fields]
  split_ifs
  · exact reads_field bit _ 7
  · exact reads_field bit _ 4
  · exact reads_nil bit _

theorem reads_decodeAlnum (sc : SizeClass) (bit : Nat → Bool) (j : Nat) :
    Reads bit j (bitsOf (countWidth .alnum sc) (decodeAlnum sc bit j).count ++
      fieldBits (decodeAlnum sc bit j).pairs ++ singleBits (decodeAlnum sc bit j).single) := by
  rw [decodeAlnum_count, reads_append, reads_append]
  simp only [List.length_append, length_bitsOf, length_fieldBits, ← Nat.add_assoc]
  refine ⟨⟨reads_readNat bit j _, reads_fields bit 11 _ _⟩, ?_⟩
  simp only [decodeAlnum, length_fields]
  split_ifs
  · exact reads_field bit _ 6
  · exact reads_nil bit _

theorem reads_decodeBytes (sc : SizeClass) (bit : Nat → Bool) (j : Nat) :
    Reads bit j (bitsOf (countWidth .byte sc) (decodeBytes sc bit j).length ++ fieldBits (decodeBytes sc bit j)) := by
  rw [length_decodeBytes, reads_append, length_bitsOf]
  exact ⟨reads_readNat bit j _, reads_fields bit 8 _ _⟩

theorem reads_decodeKanji (sc : SizeClass) (bit : Nat → Bool) (j : Nat) :
    Reads bit j (bitsOf (countWidth .kanji sc) (decodeKanji sc bit j).length ++
      fieldBits (decodeKanji sc bit j)) := by
  rw [length_decodeKanji, reads_append, length_bitsOf]
  exact ⟨reads_readNat bit j _, reads_fields bit 13 _ _⟩

/-- The selector bits and the value of an ECI segment are those its encoding has after the indicator 0111. -/
theorem reads_decodeEci {bit : Nat → Bool} {j : Nat} (h : Reads bit j [false, true, true, true]) :
    Reads bit j (encode (decodeEci bit (j + 4))) := by
  have afterMode {l : List Bool} (hl : Reads bit (j + 4) l) : Reads bit j ([false, true, true, true] ++ l) :=
    reads_append.2 ⟨h, hl⟩
  unfold decodeEci
  split_ifs with h0 h1 h2
  · exact afterMode (reads_cons.2 ⟨h0, reads_field bit _ 7⟩)
  · exact afterMode (reads_cons.2 ⟨by simpa using h0, reads_cons.2 ⟨h1, reads_field bit _ 14⟩⟩)
  · exact afterMode (reads_cons.2 ⟨by simpa using h0, reads_cons.2 ⟨by simpa using h1,
      reads_cons.2 ⟨h2, reads_field bit _ 21⟩⟩⟩)
  · exact afterMode (reads_cons.2 ⟨by simpa using h0, reads_cons.2 ⟨by simpa using h1,
      reads_cons.2 ⟨by simpa using h2, reads_nil bit _⟩⟩⟩)

/-- The row that an indicator selects has that indicator's four bits, then the bits its field decoder has read. -/
theorem reads_indicatorRow {bit : Nat → Bool} {j n : Nat} (h : readNat bit j 4 = n) (sc : SizeClass) :
    Reads bit j (encode (indicatorRow sc bit (j + 4) n)) := by
  have hlt : n < 16 := h ▸ readNat_lt bit j 4
  have hmode : Reads bit j (bitsOf 4 n) := h ▸ reads_readNat bit j 4
  have afterMode {l : List Bool} (hl : Reads bit (j + 4) l) : Reads bit j (bitsOf 4 n ++ l) :=
    reads_append.2 ⟨hmode, hl⟩
  unfold indicatorRow
  split
  case h_2 =>
    rw [encode_numInstr]
    exact afterMode (reads_decodeNum sc bit (j + 4))
  case h_3 =>
    rw [encode_alnumInstr]
    exact afterMode (reads_decodeAlnum sc bit (j + 4))
  case h_5 =>
    rw [encode_byteInstr]
    exact afterMode (reads_decodeBytes sc bit (j + 4))
  case h_9 =>
    rw [encode_kanjiInstr]
    exact afterMode (reads_decodeKanji sc bit (j + 4))
  case h_8 => exact reads_decodeEci hmode
  case h_16 => -- the last row, which stands for 0xF
    obtain rfl : n = 0xF := by grind
    exact hmode
  all_goals exact hmode

theorem wf_indicatorRow (sc : SizeClass) (bit : Nat → Bool) (k n : Nat) : (indicatorRow sc bit k n).wf = true := by
  unfold indicatorRow
  split
  case h_2 => rw [wf_numInstr, decodeNum_count]; exact countFits_of_lt (readNat_lt bit k _)
  case h_3 => rw [wf_alnumInstr, decodeAlnum_count]; exact countFits_of_lt (readNat_lt bit k _)
  case h_5 => rw [wf_byteInstr, length_decodeBytes]; exact countFits_of_lt (readNat_lt bit k _)
  case h_9 => rw [wf_kanjiInstr, length_decodeKanji]; exact countFits_of_lt (readNat_lt bit k _)
  case h_8 => obtain h | ⟨v, h⟩ | ⟨v, h⟩ | ⟨v, h⟩ := decodeEci_cases bit k <;> rw [h] <;> rfl
  all_goals rfl

theorem inStream_indicatorRow (sc : SizeClass) (bit : Nat → Bool) (k n : Nat) :
    (indicatorRow sc bit k n).inStream sc = true := by
  unfold indicatorRow
  split
  case h_2 => exact inStream_numInstr sc _
  case h_3 => exact inStream_alnumInstr sc _
  case h_5 => exact inStream_byteInstr sc _
  case h_9 => exact inStream_kanjiInstr sc _
  case h_8 => obtain h | ⟨v, h⟩ | ⟨v, h⟩ | ⟨v, h⟩ := decodeEci_cases bit k <;> rw [h] <;> rfl
  all_goals rfl

theorem wf_decodeSegment (sc : SizeClass) (bit : Nat → Bool) (j : Nat) : (decodeSegment sc bit j).wf = true := by
  rw [decodeSegment_of_indicator rfl]; exact wf_indicatorRow sc bit _ _

theorem inStream_decodeSegment (sc : SizeClass) (bit : Nat → Bool) (j : Nat) :
    (decodeSegment sc bit j).inStream sc = true := by
  rw [decodeSegment_of_indicator rfl]; exact inStream_indicatorRow sc bit _ _

/-- The source reads the encoding of the segment it is decoded to. -/
theorem reads_encode_decodeSegment (sc : SizeClass) (bit : Nat → Bool) (j : Nat) :
    Reads bit j (encode (decodeSegment sc bit j)) := by
  rw [decodeSegment_of_indicator rfl]; exact reads_indicatorRow rfl sc

/-- Settles O13: every row that an indicator selects is well-formed and of the stream's class, and the source reads its
encoding (`reads_encode_decodeSegment`). -/
theorem encodingADecodedSegmentGivesItsBits : Obligations.EncodingADecodedSegmentGivesItsBits := by
  unfold Obligations.EncodingADecodedSegmentGivesItsBits
  exact fun sc bit j => ⟨wf_decodeSegment sc bit j, inStream_decodeSegment sc bit j,
    fun k hk => (reads_encode_decodeSegment sc bit j k hk).symm⟩

/-! ### Self-delimitation and lengths -/

/-- Settles O14: the bits of the longer segment decode to it, and to the segment they begin with. -/
theorem noSegmentBeginsAnother : Obligations.NoSegmentBeginsAnother := by
  unfold Obligations.NoSegmentBeginsAnother
  rintro sc i i' hwf hwf' hsc hsc' ⟨rest, hrest⟩
  have whole : Reads (bitOfList (encode i')) 0 (encode i') := reads_bitOfList _
  have part : Reads (bitOfList (encode i')) 0 (encode i) := by
    rw [← hrest] at whole ⊢
    exact (reads_append.1 whole).1
  rw [← decodeSegment_encode hwf hsc part, decodeSegment_encode hwf' hsc' whole]

/-- A segment that completes without a fault moves OFFSET past all of its bits. -/
theorem exec_offset_of_not_fault {i : Instr} {s t : State} (hi : i.isCommand = false) (h : exec i s = .next t)
    (ht : t.status ≠ .fault) : t.offset = s.offset + i.length := by
  cases exec_cases h with
  | content _ _ _ _ => rfl
  | raises c u _ _ _ _ _ => exact absurd (raise_status _ c) ht
  | eci _ _ _ _ => rfl
  | ends hterm => subst hterm; rfl
  | skips _ hlen _ => rw [hlen]; rfl
  | answers _ _ hcommand _ => rw [hi] at hcommand; cases hcommand

theorem numLength_eq (sc : SizeClass) (d : NumData) : numLength sc d =
    4 + countWidth .num sc + 10 * (d.count / 3) +
      (if d.count % 3 = 0 then 0 else if d.count % 3 = 1 then 4 else 7) := by
  have triples : d.count / 3 = d.groups.length ∧ d.count % 3 = d.rest.count := by
    cases hr : d.rest <;> simp only [NumData.count, hr, NumRest.count] <;> omega
  rw [numLength, triples.1, triples.2]
  cases d.rest <;> rfl

theorem alnumLength_eq (sc : SizeClass) (d : AlnumData) :
    alnumLength sc d = 4 + countWidth .alnum sc + 11 * (d.count / 2) + 6 * (d.count % 2) := by
  have couples : d.count / 2 = d.pairs.length ∧ d.count % 2 = singleCount d.single := by
    cases hs : d.single <;> simp only [AlnumData.count, hs, singleCount] <;> omega
  rw [alnumLength, couples.1, couples.2]

/-- Settles O16: the encoder writes as many bits as R91 counts (`length_encode`), which a segment that completes leaves
behind it (`exec_offset_of_not_fault`). -/
theorem segmentLengthsAndOffsetAdvance : Obligations.SegmentLengthsAndOffsetAdvance := by
  unfold Obligations.SegmentLengthsAndOffsetAdvance
  refine ⟨fun sc d => ?_, fun sc d => ?_, fun sc bs => ?_, fun sc ks => ?_, fun v => length_encode (.eci7 v),
    fun v => length_encode (.eci14 v), fun v => length_encode (.eci21 v), rfl, rfl,
    fun i hi => (length_encode i).trans (length_of_mem_reservedIndicators i hi), fun i s t hi _ h ht => ?_⟩
  · rw [length_encode, length_numInstr, numLength_eq]
  · rw [length_encode, length_alnumInstr, alnumLength_eq]
  · rw [length_encode, length_byteInstr, byteLength]
  · rw [length_encode, length_kanjiInstr, kanjiLength]
  · rw [length_encode, exec_offset_of_not_fault hi h ht]

end Sys2Proof
end

section
/-! Strict UTF-8 against the rows of R205: settles O40. -/

namespace Sys2Proof.Machine

/-! ### The rows of R205 by first byte

`utf8Lead` is a chain of ten comparisons; each lemma says which of its branches answer a given kind of sequence.
A byte up to 0xE0 is settled by the first four of them, a larger one by the other six. -/

theorem utf8Lead_eq_one_iff {n : Nat} : utf8Lead n = .one ↔ n ≤ 0x7F := by
  unfold utf8Lead
  by_cases h : n ≤ 0xE0 <;> grind

theorem utf8Lead_eq_two_iff {n : Nat} : utf8Lead n = .two ↔ 0xC2 ≤ n ∧ n ≤ 0xDF := by
  unfold utf8Lead
  by_cases h : n ≤ 0xE0 <;> grind

theorem utf8Lead_eq_three_iff {n lo hi : Nat} : utf8Lead n = .three lo hi ↔
    (n = 0xE0 ∧ lo = 0xA0 ∧ hi = 0xBF) ∨ (0xE1 ≤ n ∧ n ≤ 0xEC ∧ lo = 0x80 ∧ hi = 0xBF) ∨
    (n = 0xED ∧ lo = 0x80 ∧ hi = 0x9F) ∨ (0xEE ≤ n ∧ n ≤ 0xEF ∧ lo = 0x80 ∧ hi = 0xBF) := by
  unfold utf8Lead
  by_cases h : n ≤ 0xE0 <;> grind

theorem utf8Lead_eq_four_iff {n lo hi : Nat} : utf8Lead n = .four lo hi ↔
    (n = 0xF0 ∧ lo = 0x90 ∧ hi = 0xBF) ∨ (0xF1 ≤ n ∧ n ≤ 0xF3 ∧ lo = 0x80 ∧ hi = 0xBF) ∨
    (n = 0xF4 ∧ lo = 0x80 ∧ hi = 0x8F) := by
  unfold utf8Lead
  by_cases h : n ≤ 0xE0 <;> grind

theorem byteIn_iff {lo hi : Nat} {b : Byte} : byteIn lo hi b = true ↔ lo ≤ b.toNat ∧ b.toNat ≤ hi := by
  simp [byteIn]

/-- What the decoder accepts at the start of a list: the sequence and its scalar value. -/
inductive Utf8Accepted : List Byte → Nat → Prop
  | one {b0 : Byte} : utf8Lead b0.toNat = .one → Utf8Accepted [b0] b0.toNat
  | two {b0 b1 : Byte} : utf8Lead b0.toNat = .two → byteIn 0x80 0xBF b1 = true → Utf8Accepted [b0, b1] (scalar2 b0 b1)
  | three {b0 b1 b2 : Byte} {lo hi : Nat} : utf8Lead b0.toNat = .three lo hi → byteIn lo hi b1 = true →
      byteIn 0x80 0xBF b2 = true → Utf8Accepted [b0, b1, b2] (scalar3 b0 b1 b2)
  | four {b0 b1 b2 b3 : Byte} {lo hi : Nat} : utf8Lead b0.toNat = .four lo hi → byteIn lo hi b1 = true →
      byteIn 0x80 0xBF b2 = true → byteIn 0x80 0xBF b3 = true → Utf8Accepted [b0, b1, b2, b3] (scalar4 b0 b1 b2 b3)

/-- What passes the decoder's tests is one of the nine rows. -/
theorem utf8Sequence_of_accepted {seq : List Byte} {v : Nat} (h : Utf8Accepted seq v) : Utf8Sequence seq v := by
  cases h with
  | one h0 => exact .one _ (utf8Lead_eq_one_iff.1 h0)
  | two h0 h1 =>
    obtain ⟨lo0, hi0⟩ := utf8Lead_eq_two_iff.1 h0
    obtain ⟨lo1, hi1⟩ := byteIn_iff.1 h1
    exact .two _ _ lo0 hi0 lo1 hi1
  | three h0 h1 h2 =>
    obtain ⟨lo1, hi1⟩ := byteIn_iff.1 h1
    obtain ⟨lo2, hi2⟩ := byteIn_iff.1 h2
    obtain ⟨e, rfl, rfl⟩ | ⟨lo0, hi0, rfl, rfl⟩ | ⟨e, rfl, rfl⟩ | ⟨lo0, hi0, rfl, rfl⟩ := utf8Lead_eq_three_iff.1 h0
    · exact .threeE0 _ _ _ e lo1 hi1 lo2 hi2
    · exact .threeE1 _ _ _ lo0 hi0 lo1 hi1 lo2 hi2
    · exact .threeED _ _ _ e lo1 hi1 lo2 hi2
    · exact .threeEE _ _ _ lo0 hi0 lo1 hi1 lo2 hi2
  | four h0 h1 h2 h3 =>
    obtain ⟨lo1, hi1⟩ := byteIn_iff.1 h1
    obtain ⟨lo2, hi2⟩ := byteIn_iff.1 h2
    obtain ⟨lo3, hi3⟩ := byteIn_iff.1 h3
    obtain ⟨e, rfl, rfl⟩ | ⟨lo0, hi0, rfl, rfl⟩ | ⟨e, rfl, rfl⟩ := utf8Lead_eq_four_iff.1 h0
    · exact .fourF0 _ _ _ _ e lo1 hi1 lo2 hi2 lo3 hi3
    · exact .fourF1 _ _ _ _ lo0 hi0 lo1 hi1 lo2 hi2 lo3 hi3
    · exact .fourF4 _ _ _ _ e lo1 hi1 lo2 hi2 lo3 hi3

/-- Each of the nine rows passes the decoder's tests. -/
theorem accepted_of_utf8Sequence {seq : List Byte} {v : Nat} (h : Utf8Sequence seq v) : Utf8Accepted seq v := by
  have three {b0 b1 b2 : Byte} {lo hi : Nat} (h0 : utf8Lead b0.toNat = .three lo hi) (lo1 : lo ≤ b1.toNat)
      (hi1 : b1.toNat ≤ hi) (lo2 : 0x80 ≤ b2.toNat) (hi2 : b2.toNat ≤ 0xBF) :
      Utf8Accepted [b0, b1, b2] (scalar3 b0 b1 b2) :=
    .three h0 (byteIn_iff.2 ⟨lo1, hi1⟩) (byteIn_iff.2 ⟨lo2, hi2⟩)
  have four {b0 b1 b2 b3 : Byte} {lo hi : Nat} (h0 : utf8Lead b0.toNat = .four lo hi) (lo1 : lo ≤ b1.toNat)
      (hi1 : b1.toNat ≤ hi) (lo2 : 0x80 ≤ b2.toNat) (hi2 : b2.toNat ≤ 0xBF) (lo3 : 0x80 ≤ b3.toNat)
      (hi3 : b3.toNat ≤ 0xBF) : Utf8Accepted [b0, b1, b2, b3] (scalar4 b0 b1 b2 b3) :=
    .four h0 (byteIn_iff.2 ⟨lo1, hi1⟩) (byteIn_iff.2 ⟨lo2, hi2⟩) (byteIn_iff.2 ⟨lo3, hi3⟩)
  cases h with
  | one b0 h0 => exact .one (utf8Lead_eq_one_iff.2 h0)
  | two b0 b1 lo0 hi0 lo1 hi1 => exact .two (utf8Lead_eq_two_iff.2 ⟨lo0, hi0⟩) (byteIn_iff.2 ⟨lo1, hi1⟩)
  | threeE0 b0 b1 b2 e lo1 hi1 lo2 hi2 =>
    exact three (utf8Lead_eq_three_iff.2 (.inl ⟨e, rfl, rfl⟩)) lo1 hi1 lo2 hi2
  | threeE1 b0 b1 b2 lo0 hi0 lo1 hi1 lo2 hi2 =>
    exact three (utf8Lead_eq_three_iff.2 (.inr (.inl ⟨lo0, hi0, rfl, rfl⟩))) lo1 hi1 lo2 hi2
  | threeED b0 b1 b2 e lo1 hi1 lo2 hi2 =>
    exact three (utf8Lead_eq_three_iff.2 (.inr (.inr (.inl ⟨e, rfl, rfl⟩)))) lo1 hi1 lo2 hi2
  | threeEE b0 b1 b2 lo0 hi0 lo1 hi1 lo2 hi2 =>
    exact three (utf8Lead_eq_three_iff.2 (.inr (.inr (.inr ⟨lo0, hi0, rfl, rfl⟩)))) lo1 hi1 lo2 hi2
  | fourF0 b0 b1 b2 b3 e lo1 hi1 lo2 hi2 lo3 hi3 =>
    exact four (utf8Lead_eq_four_iff.2 (.inl ⟨e, rfl, rfl⟩)) lo1 hi1 lo2 hi2 lo3 hi3
  | fourF1 b0 b1 b2 b3 lo0 hi0 lo1 hi1 lo2 hi2 lo3 hi3 =>
    exact four (utf8Lead_eq_four_iff.2 (.inr (.inl ⟨lo0, hi0, rfl, rfl⟩))) lo1 hi1 lo2 hi2 lo3 hi3
  | fourF4 b0 b1 b2 b3 e lo1 hi1 lo2 hi2 lo3 hi3 =>
    exact four (utf8Lead_eq_four_iff.2 (.inr (.inr ⟨e, rfl, rfl⟩))) lo1 hi1 lo2 hi2 lo3 hi3

/-! ### The decoder, sequence by sequence -/

/-- An accepted sequence is taken off the list and its code units put before those of the rest. -/
theorem utf8Strict_append {seq : List Byte} {v : Nat} (h : Utf8Accepted seq v) (rest : List Byte) :
    utf8Strict (seq ++ rest) = (utf8Strict rest).map (utf16Units v ++ ·) := by
  cases h with
  | one h0 =>
    rw [List.singleton_append]
    conv_lhs => unfold utf8Strict
    simp only [h0]
  | two h0 h1 => simp [utf8Strict, h0, h1]
  | three h0 h1 h2 => simp [utf8Strict, h0, h1, h2]
  | four h0 h1 h2 h3 => simp [utf8Strict, h0, h1, h2, h3]

/-- A list that the decoder accepts is empty or begins with an accepted sequence. -/
theorem exists_accepted_of_utf8Strict {b : Byte} {bs : List Byte} {us : List CodeUnit}
    (h : utf8Strict (b :: bs) = some us) :
    ∃ seq v rest, Utf8Accepted seq v ∧ b :: bs = seq ++ rest := by
  unfold utf8Strict at h
  split at h
  case h_1 h0 => exact ⟨_, _, bs, .one h0, rfl⟩
  case h_2 => cases h
  case h_3 h0 =>
    split at h
    · split_ifs at h with h1
      exact ⟨_, _, _, .two h0 h1, rfl⟩
    · cases h
  case h_4 h0 =>
    split at h
    · split_ifs at h with h1
      rw [Bool.and_eq_true] at h1
      exact ⟨_, _, _, .three h0 h1.1 h1.2, rfl⟩
    · cases h
  case h_5 h0 =>
    split at h
    · split_ifs at h with h1
      rw [Bool.and_eq_true, Bool.and_eq_true] at h1
      exact ⟨_, _, _, .four h0 h1.1.1 h1.1.2 h1.2, rfl⟩
    · cases h

theorem length_pos_of_accepted {seq : List Byte} {v : Nat} (h : Utf8Accepted seq v) : 0 < seq.length := by
  cases h <;> exact Nat.succ_pos _

/-- What the decoder accepts is a concatenation of sequences: one is taken off and the rest is shorter. -/
theorem utf8Text_of_utf8Strict : ∀ (bs : List Byte) {us : List CodeUnit}, utf8Strict bs = some us → Utf8Text bs us
  | [], us, h => by
    rw [utf8Strict] at h
    obtain rfl := Option.some.inj h
    exact .nil
  | b :: bs, us, h => by
    obtain ⟨seq, v, rest, hseq, heq⟩ := exists_accepted_of_utf8Strict h
    have shorter : rest.length < (b :: bs).length := by
      rw [heq, List.length_append]
      have := length_pos_of_accepted hseq
      omega
    rw [heq, utf8Strict_append hseq, Option.map_eq_some_iff] at h
    obtain ⟨us', hrest, rfl⟩ := h
    rw [heq]
    exact .cons (utf8Sequence_of_accepted hseq) (utf8Text_of_utf8Strict rest hrest)
termination_by bs => bs.length
decreasing_by exact shorter

theorem utf8Strict_of_utf8Text {bs : List Byte} {us : List CodeUnit} (h : Utf8Text bs us) : utf8Strict bs = some us := by
  induction h with
  | nil => rw [utf8Strict]
  | cons hseq _ ih => rw [utf8Strict_append (accepted_of_utf8Sequence hseq), ih, Option.map_some]

/-- Settles O40: the decoder takes sequences off the list one after another (`utf8Strict_append`), and those it accepts are
the nine rows (`utf8Sequence_of_accepted`, `accepted_of_utf8Sequence`). -/
theorem strictUtf8IsTheTableOfR205 : Obligations.StrictUtf8IsTheTableOfR205 := by
  unfold Obligations.StrictUtf8IsTheTableOfR205
  exact fun bs us => ⟨utf8Text_of_utf8Strict bs, utf8Strict_of_utf8Text⟩

end Sys2Proof.Machine
end

section
/-! What the host does between steps (R97, R115, R300 to R308): settles O3, O21, O22, O23, O24, O26, O56 and O57. -/

namespace Sys2Proof.Machine

/-! ### A pending command -/

/-- A pending command is taken off the port and carried out (R32, R97). -/
theorem step_of_pending {s : State} {c : HostCmd} (h : s.pending = some c) :
    step s = hostStep c { s with pending := none } := by simp only [step, h]

/-- While a decode runs, whatever is pending is refused. -/
theorem step_refused_of_run {s : State} {c : HostCmd} (hr : s.status = .run) (hp : s.pending = some c) :
    ∃ r, step s = .refused r := by
  rw [step_of_pending hp]
  exact hostStep_run (s := { s with pending := none }) hr c

/-! ### START -/

theorem hostStart_of_run {s : State} (h : s.status = .run) : hostStart s = .refused .startWhileRunning := if_pos h

theorem hostStart_of_sizeClass {s : State} {sc : SizeClass} (h : s.status ≠ .run) (hv : sizeClass s.version = some sc) :
    hostStart s = .next s.launch := by
  rw [hostStart, if_neg h, hv]

theorem hostStart_of_no_sizeClass {s : State} (h : s.status ≠ .run) (hv : sizeClass s.version = none) :
    hostStart s = .refused .versionOutOfRange := by
  rw [hostStart, if_neg h, hv]

/-- The versions that have a size class are 1 to 40 (R7, R303). -/
theorem sizeClass_isSome_iff (v : BitVec 6) : (sizeClass v).isSome ↔ 1 ≤ v.toNat ∧ v.toNat ≤ 40 := by
  rw [Option.isSome_iff_exists]
  simp only [sizeClass_eq_some_iff]
  constructor
  · rintro ⟨sc, h⟩
    cases sc <;> simp only [SizeClass.firstVersion, SizeClass.lastVersion] at h <;> omega
  · intro h
    by_cases h9 : v.toNat ≤ 9
    · exact ⟨.sc0, h.1, h9⟩
    · by_cases h26 : v.toNat ≤ 26
      · exact ⟨.sc1, Nat.lt_of_not_le h9, h26⟩
      · exact ⟨.sc2, Nat.lt_of_not_le h26, h.2⟩

/-- Outside RUN, with a legal VERSION, a step that finds START pending launches the decode (R300). -/
theorem step_eq_launch {s : State} {sc : SizeClass} (hp : s.pending = some .start) (hr : s.status ≠ .run)
    (hv : sizeClass s.version = some sc) : step s = .next ({ s with pending := none } : State).launch := by
  rw [step_of_pending hp]
  exact hostStart_of_sizeClass (s := { s with pending := none }) hr hv

/-- Settles O21: a legal VERSION has a size class, so START outside RUN launches the decode. -/
theorem startTakesTheResetValues : Obligations.StartTakesTheResetValues := by
  unfold Obligations.StartTakesTheResetValues
  intro s hp hr hlo hhi
  obtain ⟨sc, hsc⟩ := Option.isSome_iff_exists.1 ((sizeClass_isSome_iff s.version).2 ⟨hlo, hhi⟩)
  exact step_eq_launch hp hr hsc

/-- Settles O22: RUN is looked at first, then whether VERSION has a size class. -/
theorem startIsRefused : Obligations.StartIsRefused := by
  unfold Obligations.StartIsRefused
  intro s hp
  rw [step_of_pending hp]
  refine ⟨fun hr => hostStart_of_run hr, fun hr hv => hostStart_of_no_sizeClass hr ?_⟩
  rw [← Option.not_isSome_iff_eq_none, sizeClass_isSome_iff]
  change ¬(1 ≤ s.version.toNat ∧ s.version.toNat ≤ 40)
  omega

/-! ### Inputs and configuration -/

theorem hostLoad_of_not_run {s : State} (h : s.status ≠ .run) (buf : List Byte) (v : BitVec 6) :
    hostLoad buf v s = .next { s with mem := Memory.ofBytes buf, len := buf.length, version := v } := if_neg h

theorem hostConfigure_of_not_run {s : State} (h : s.status ≠ .run) (tab : List (CodeUnit × CodeUnit))
    (dec : Utf8Decoder) : hostConfigure tab dec s = .next { s with sjis := tab, utf8 := dec } := if_neg h

/-- Settles O23: a load and a configure look at STATUS before anything else. -/
theorem inputChangesAreRefusedInRun : Obligations.InputChangesAreRefusedInRun := by
  unfold Obligations.InputChangesAreRefusedInRun
  intro s buf v tab dec hr
  refine ⟨fun hp => ?_, fun hp => ?_⟩
  · rw [step_of_pending hp]; exact if_pos hr
  · rw [step_of_pending hp]; exact if_pos hr

/-- Settles O57: outside RUN a configure is carried out. -/
theorem aConfigureSetsTheParameters : Obligations.AConfigureSetsTheParameters := by
  unfold Obligations.AConfigureSetsTheParameters
  intro s tab dec hr hp
  rw [step_of_pending hp]
  exact hostConfigure_of_not_run (s := { s with pending := none }) hr tab dec

/-- A loaded buffer reads as its bytes and as 0 beyond them (R52). -/
theorem Memory.read_ofBytes (buf : List Byte) (a : Nat) : Memory.read (Memory.ofBytes buf) a = buf.getD a 0 := by
  rw [Memory.ofBytes, Memory.read_writeList rfl, Nat.sub_zero, Nat.zero_add]
  split_ifs with h
  · rfl
  · rw [List.getD_eq_default _ _ (by omega)]
    rfl

/-- `BufBit` of a loaded buffer is the bit of its bytes, within LEN and beyond it. -/
theorem bufBit_of_ofBytes {s : State} {buf : List Byte} (hm : s.mem = Memory.ofBytes buf) (hl : s.len = buf.length)
    (j : Nat) : s.bufBit j = bitOfBytes buf j := by
  have read : Memory.read s.mem (j / 8) = buf.getD (j / 8) 0 := by rw [hm, Memory.read_ofBytes]
  by_cases h : j < 8 * s.len
  · rw [bufBit_of_lt h, read, bitOfBytes]
  · rw [bufBit_of_le (by omega), bitOfBytes, List.getD_eq_default _ _ (by omega)]
    exact (BitVec.getLsbD_zero).symm

/-- Settles O24: outside RUN a load is carried out, and what it places reads as `read_ofBytes` and `bufBit_of_ofBytes`
say. -/
theorem aLoadPlacesTheBuffer : Obligations.ALoadPlacesTheBuffer := by
  unfold Obligations.ALoadPlacesTheBuffer
  intro s buf v hr hp
  rw [step_of_pending hp]
  exact ⟨_, hostLoad_of_not_run (s := { s with pending := none }) hr buf v, rfl, Memory.read_ofBytes buf,
    bufBit_of_ofBytes rfl rfl, Memory.wf_ofBytes buf⟩

/-! ### Cursor command words -/

/-- Outside RUN a command word runs as the instruction it decodes to (R97). -/
theorem hostCursor_of_ok {s : State} {w : BitVec 7} {i : Instr} (hr : s.status ≠ .run) (hw : decodeCommand w = .ok i) :
    hostCursor w s = exec i s := by
  rw [hostCursor, if_neg hr, hw]

/-- Outside RUN a reserved word is refused (R115). -/
theorem hostCursor_of_error {s : State} {w : BitVec 7} {e : DecodeError} (hr : s.status ≠ .run)
    (hw : decodeCommand w = .error e) : hostCursor w s = .refused .readTooWide := by
  rw [hostCursor, if_neg hr, hw]

/-- Settles O3: the instruction looks at its operand, and the port has the word decoded first, as reserved. -/
theorem bcReadAbove32IsRefused : Obligations.BcReadAbove32IsRefused := by
  unfold Obligations.BcReadAbove32IsRefused
  intro s n hn
  refine ⟨if_neg (Nat.not_le.2 hn), fun hr hp => ?_⟩
  rw [step_of_pending hp]
  refine hostCursor_of_error hr (e := .readWidthReserved) ?_
  rw [decodeCommand_ofNat, if_neg (Nat.not_le.2 hn)]

/-- Settles O56: in RUN every command is refused, a cursor command word by its own name. -/
theorem theHostHasNoStepInRun : Obligations.TheHostHasNoStepInRun := by
  unfold Obligations.TheHostHasNoStepInRun
  intro s c hr hp
  refine ⟨step_refused_of_run hr hp, ?_⟩
  rintro ⟨w, rfl⟩
  rw [step_of_pending hp]
  exact if_pos hr

/-! ### What the host reads -/

theorem hostView_of_done {s : State} (h : s.status = .done) :
    s.hostView = .result ⟨s.text, s.bytes, s.chunks, s.resultVersion⟩ := by rw [State.hostView, h]

theorem hostView_of_fault {s : State} (h : s.status = .fault) : s.hostView = .cause s.cause := by
  rw [State.hostView, h]

/-- Settles O26: `hostView` is a choice by STATUS alone. -/
theorem hostReadsTheResultOnlyAtDone : Obligations.HostReadsTheResultOnlyAtDone := by
  unfold Obligations.HostReadsTheResultOnlyAtDone
  refine fun s => ⟨hostView_of_done, hostView_of_fault, fun h => ?_⟩
  obtain h | h := h <;> rw [State.hostView, h]

end Sys2Proof.Machine
end

section
/-! The buffer and the Bit Cursor over it (R50 to R57, R112, R117): settles O5, O6, O7 and O8. -/

namespace Sys2Proof.Machine

/-! ### Reads -/

/-- A read of `a + b` bits is a read of `a` bits and one of `b` bits after it (R54). -/
theorem memRead_add (s : State) (j a b : Nat) :
    s.memRead j (a + b) = s.memRead j a * 2 ^ b + s.memRead (j + a) b := readNat_add s.bufBit j a b

/-- Wholly beyond the end of BUF there is nothing but zeros (R52). -/
theorem memRead_eq_zero_of_le {s : State} {j : Nat} (h : 8 * s.len ≤ j) (n : Nat) : s.memRead j n = 0 :=
  readNat_eq_zero fun _ _ => bufBit_of_le (by omega)

/-- Settles O5: three reads by `exec_bcRead_of_le`, the second from where the first stopped, put together by
`memRead_add`. -/
theorem splitReadsEqualOneRead : Obligations.SplitReadsEqualOneRead := by
  unfold Obligations.SplitReadsEqualOneRead
  intro s a b ab hab h32
  refine ⟨_, _, _, exec_bcRead_of_le (by omega) s, exec_bcRead_of_le (by omega) _, exec_bcRead_of_le h32 s, ?_, ?_⟩
  · have same : ((s.advance a.toNat).answer (s.memRead s.offset a.toNat)).memRead = s.memRead := memRead_congr rfl rfl
    simp only [answer_reply, answer_offset, advance_offset, same]
    rw [← hab, memRead_add]
  · simp only [answer_offset, advance_offset]
    omega

/-- Settles O6: the read is cut at the end of BUF, and its second part is 0. -/
theorem missingBitsReadAsLowOrderZeros : Obligations.MissingBitsReadAsLowOrderZeros := by
  unfold Obligations.MissingBitsReadAsLowOrderZeros
  refine fun s j n => ⟨fun hj hn => ?_, fun hj => memRead_eq_zero_of_le hj n⟩
  have cut : n = (8 * s.len - j) + (j + n - 8 * s.len) := by omega
  have beyond : s.memRead (j + (8 * s.len - j)) (j + n - 8 * s.len) = 0 := memRead_eq_zero_of_le (by omega) _
  conv_lhs => rw [cut, memRead_add, beyond, Nat.add_zero]

/-- Settles O7: `rtl_readBits_eq` says what `n` shifts leave. -/
theorem shiftRegisterFormEqualsReadBits : Obligations.ShiftRegisterFormEqualsReadBits := by
  unfold Obligations.ShiftRegisterFormEqualsReadBits
  intro m n hn
  obtain ⟨a, hread, hvalue⟩ := rtl_readBits_eq m n hn
  rw [hread]
  exact ⟨hvalue, rfl, rfl⟩

/-! ### The memory -/

theorem Memory.wfFrom_cons_iff {x p : Nat} {q : Byte} {r : Memory} :
    Memory.wfFrom x ((p, q) :: r) = true ↔ x ≤ p ∧ q ≠ Memory.unlisted ∧ Memory.wfFrom (p + 1) r = true := by
  simp only [Memory.wfFrom, Bool.and_eq_true, decide_eq_true_eq, and_assoc]

theorem Memory.read_cons_self (p : Nat) (q : Byte) (r : Memory) : Memory.read ((p, q) :: r) p = q := by
  rw [Memory.read, if_pos rfl]

theorem Memory.read_cons_of_ne {p a : Nat} (h : p ≠ a) (q : Byte) (r : Memory) :
    Memory.read ((p, q) :: r) a = Memory.read r a := by rw [Memory.read, if_neg h]

/-- In canonical form the first listed address is the first that does not read as unlisted, so two memories that read
alike begin alike, and so do what follows. -/
theorem Memory.ext_of_wfFrom {m m' : Memory} {x x' : Nat} (hm : Memory.wfFrom x m = true)
    (hm' : Memory.wfFrom x' m' = true) (h : ∀ a, Memory.read m a = Memory.read m' a) : m = m' := by
  induction m generalizing m' x x' with
  | nil =>
    cases m' with
    | nil => rfl
    | cons c' r' =>
      obtain ⟨-, hq', -⟩ := Memory.wfFrom_cons_iff.1 hm'
      exact absurd ((Memory.read_cons_self c'.1 c'.2 r').symm.trans (h c'.1).symm) hq'
  | cons c r ih =>
    obtain ⟨p, q⟩ := c
    obtain ⟨-, hq, hr⟩ := Memory.wfFrom_cons_iff.1 hm
    cases m' with
    | nil => exact absurd ((Memory.read_cons_self p q r).symm.trans (h p)) hq
    | cons c' r' =>
      obtain ⟨p', q'⟩ := c'
      obtain ⟨-, hq', hr'⟩ := Memory.wfFrom_cons_iff.1 hm'
      have hle : p ≤ p' := Nat.le_of_not_lt fun hlt => hq' <| by
        rw [← Memory.read_cons_self p' q' r', ← h p']
        exact Memory.read_below (Memory.wfFrom_cons_iff.2 ⟨Nat.le_refl p, hq, hr⟩) hlt
      have hge : p' ≤ p := Nat.le_of_not_lt fun hlt => hq <| by
        rw [← Memory.read_cons_self p q r, h p]
        exact Memory.read_below (Memory.wfFrom_cons_iff.2 ⟨Nat.le_refl p', hq', hr'⟩) hlt
      obtain rfl : p = p' := Nat.le_antisymm hle hge
      obtain rfl : q = q' := by rw [← Memory.read_cons_self p q r, h p, Memory.read_cons_self]
      have tails : ∀ a, Memory.read r a = Memory.read r' a := fun a => by
        by_cases ha : a < p + 1
        · rw [Memory.read_below hr ha, Memory.read_below hr' ha]
        · have ha : p ≠ a := by omega
          rw [← Memory.read_cons_of_ne ha q r, h a, Memory.read_cons_of_ne ha]
      rw [ih hr hr' tails]

/-- Settles O8: `wf_write`, `read_write` and, for equal contents, `ext_of_wfFrom`. -/
theorem memoryReadAfterWrite : Obligations.MemoryReadAfterWrite := by
  unfold Obligations.MemoryReadAfterWrite
  exact ⟨fun m x y b hm => ⟨Memory.wf_write hm x b, Memory.read_write hm x b y⟩,
    fun m m' hm hm' h => Memory.ext_of_wfFrom hm hm' h⟩

end Sys2Proof.Machine
end

section
/-! What a step of the sequencer reads and what it writes (R35, R141, R311): settles O49, O50 and O51. -/

namespace Sys2Proof.Machine

open Claims

/-! ### The change that a segment or the tail check makes -/

/-- What a step leaves of the run: it goes on, is done (R133, R138) or takes a fault (R266). -/
inductive Ending
  | goesOn
  | done
  | fault (c : Cause)

/-- What a step adds to OFFSET and to the result lists, and how it ends. -/
structure Change where
  used : Nat
  text : List CodeUnit
  bytes : List Byte
  chunks : List Chunk
  ending : Ending

/-- The state after a change. -/
def State.after (s : State) (k : Change) : State :=
  let t := { s with offset := s.offset + k.used, text := s.text ++ k.text, bytes := s.bytes ++ k.bytes,
                    chunks := s.chunks ++ k.chunks }
  match k.ending with
  | .goesOn  => t
  | .done    => t.finish
  | .fault c => t.raise c

section

variable (s : State) (k : Change)

@[simp] theorem after_mem : (s.after k).mem = s.mem := by unfold State.after; split <;> rfl
@[simp] theorem after_len : (s.after k).len = s.len := by unfold State.after; split <;> rfl
@[simp] theorem after_version : (s.after k).version = s.version := by unfold State.after; split <;> rfl
@[simp] theorem after_sjis : (s.after k).sjis = s.sjis := by unfold State.after; split <;> rfl
@[simp] theorem after_utf8 : (s.after k).utf8 = s.utf8 := by unfold State.after; split <;> rfl
@[simp] theorem after_resultVersion : (s.after k).resultVersion = s.resultVersion := by
  unfold State.after; split <;> rfl
@[simp] theorem after_pending : (s.after k).pending = s.pending := by unfold State.after; split <;> rfl
@[simp] theorem after_reply : (s.after k).reply = s.reply := by unfold State.after; split <;> rfl
@[simp] theorem after_offset : (s.after k).offset = s.offset + k.used := by unfold State.after; split <;> rfl
@[simp] theorem after_text : (s.after k).text = s.text ++ k.text := by unfold State.after; split <;> rfl
@[simp] theorem after_bytes : (s.after k).bytes = s.bytes ++ k.bytes := by unfold State.after; split <;> rfl
@[simp] theorem after_chunks : (s.after k).chunks = s.chunks ++ k.chunks := by unfold State.after; split <;> rfl

/-- A change leaves the last answer of a cursor command out. -/
theorem after_with_reply (r : Nat) : ({ s with reply := r } : State).after k = { s.after k with reply := r } := by
  unfold State.after; split <;> rfl

/-- A change sets STATUS, CAUSE and OFFSET whatever the lists hold. -/
theorem sameButLists_after (x : List CodeUnit) (y : List Byte) (z : List Chunk) :
    sameButLists (s.after k) (({ s with text := x, bytes := y, chunks := z } : State).after k) := by
  unfold State.after; split <;> rfl

end

/-! ### Segments -/

/-- What two states of a decode must share for a step to make the same change of both. -/
structure SameInputs (s s' : State) : Prop where
  mem : s'.mem = s.mem
  len : s'.len = s.len
  version : s'.version = s.version
  sjis : s'.sjis = s.sjis
  utf8 : s'.utf8 = s.utf8
  offset : s'.offset = s.offset

/-- The change a content segment makes is what its unpacker answers. -/
def segmentChange (chunk : Work → Chunk) : Unpacked → Change
  | .ok w => ⟨w.used, w.text, w.bytes, [chunk w], .goesOn⟩
  | .error (c, used) => ⟨used, [], [], [], .fault c⟩

theorem closeSegment_eq_after (chunk : Work → Chunk) (u : Unpacked) (s : State) :
    closeSegment chunk u s = s.after (segmentChange chunk u) := by
  cases u with
  | ok w => rfl
  | error e => simp [closeSegment, segmentChange, State.after, State.advance]

theorem eciSegment_eq_after (bits : Nat) (a : Int) (s : State) :
    eciSegment bits a s = s.after ⟨bits, [], [], [.eci a], .goesOn⟩ := by
  simp [eciSegment_eq, State.after]

theorem reservedSegment_eq_after (s : State) : reservedSegment s = s.after ⟨4, [], [], [], .goesOn⟩ := by
  simp [reservedSegment_eq, State.after]

theorem finish_advance_eq_after (n : Nat) (s : State) : (s.advance n).finish = s.after ⟨n, [], [], [], .done⟩ := by
  simp [State.advance, State.after]

theorem raise_advance_eq_after (n : Nat) (c : Cause) (s : State) :
    (s.advance n).raise c = s.after ⟨n, [], [], [], .fault c⟩ := by
  simp [State.advance, State.after]

/-- A segment makes one and the same change of all states that hold the same table and decoder. -/
theorem exec_eq_after {sc : SizeClass} {i : Instr} (hi : i.inStream sc = true) (s : State) :
    ∃ k, ∀ s' : State, s'.sjis = s.sjis → s'.utf8 = s.utf8 → exec i s' = .next (s'.after k) := by
  cases row_of_inStream hi with
  | num d =>
    refine ⟨segmentChange (fun w => .numeric w.text) (unpackNumeric sc d), fun s' _ _ => ?_⟩
    rw [exec_numInstr, numericSegment, closeSegment_eq_after]
  | alnum d =>
    refine ⟨segmentChange (fun w => .alphanumeric w.text) (unpackAlphanumeric sc d), fun s' _ _ => ?_⟩
    rw [exec_alnumInstr, alphanumericSegment, closeSegment_eq_after]
  | byte bs =>
    refine ⟨segmentChange (fun w => .byte w.bytes w.text) (unpackByte s.utf8 sc bs), fun s' _ hdec => ?_⟩
    rw [exec_byteInstr, byteSegment, hdec, closeSegment_eq_after]
  | kanji ks =>
    refine ⟨segmentChange (fun w => .kanji w.bytes w.text) (unpackKanji s.sjis sc ks), fun s' htab _ => ?_⟩
    rw [exec_kanjiInstr, kanjiSegment, htab, closeSegment_eq_after]
  | eci7 v => exact ⟨_, fun s' _ _ => by rw [exec_eci7, eciSegment_eq_after]⟩
  | eci14 v => exact ⟨_, fun s' _ _ => by rw [exec_eci14, eciSegment_eq_after]⟩
  | eci21 v => exact ⟨_, fun s' _ _ => by rw [exec_eci21, eciSegment_eq_after]⟩
  | eciBad => exact ⟨_, fun s' _ _ => by rw [exec_eciBad, eciSegment_eq_after]⟩
  | term => exact ⟨_, fun s' _ _ => by rw [exec_term, finish_advance_eq_after]⟩
  | reserved h => exact ⟨_, fun s' _ _ => by rw [exec_of_mem_reservedIndicators h, reservedSegment_eq_after]⟩

/-! ### Steps -/

theorem bufBit_of_sameInputs {s s' : State} (h : SameInputs s s') : s'.bufBit = s.bufBit := bufBit_congr h.mem h.len

theorem available_of_sameInputs {s s' : State} (h : SameInputs s s') : s'.available = s.available := by
  rw [State.available, h.len, h.offset, State.available]

theorem memRead_of_sameInputs {s s' : State} (h : SameInputs s s') : s'.memRead = s.memRead := memRead_congr h.mem h.len

/-- The bits that are left, none of them included, are all zero: DONE (R138). -/
theorem tailCheck_of_eq_zero {s : State} (h : s.memRead s.offset s.available = 0) :
    tailCheck s = (s.advance s.available).finish := by
  obtain ⟨h0, h⟩ | ⟨-, -, h⟩ | ⟨-, hne, -⟩ := tailCheck_cases s
  · rw [h, h0, advance_zero]
  · exact h
  · exact absurd h hne

/-- The bits that are left are not all zero: a fault (R139). -/
theorem tailCheck_of_ne_zero {s : State} (h : s.memRead s.offset s.available ≠ 0) :
    tailCheck s = (s.advance s.available).raise .unterminated := by
  obtain ⟨h0, -⟩ | ⟨-, hz, -⟩ | ⟨-, -, h⟩ := tailCheck_cases s
  · rw [h0] at h
    exact absurd rfl h
  · exact absurd hz h
  · exact h

/-- The tail check makes one and the same change of states that share what it reads. -/
theorem tailCheck_eq_after (s : State) : ∃ k, ∀ s' : State, SameInputs s s' → tailCheck s' = s'.after k := by
  have read {s' : State} (h : SameInputs s s') :
      s'.memRead s'.offset s'.available = s.memRead s.offset s.available := by
    rw [memRead_of_sameInputs h, h.offset, available_of_sameInputs h]
  by_cases hv : s.memRead s.offset s.available = 0
  · refine ⟨⟨s.available, [], [], [], .done⟩, fun s' h => ?_⟩
    rw [tailCheck_of_eq_zero ((read h).trans hv), available_of_sameInputs h, finish_advance_eq_after]
  · refine ⟨⟨s.available, [], [], [], .fault .unterminated⟩, fun s' h => ?_⟩
    rw [tailCheck_of_ne_zero (fun h0 => hv ((read h).symm.trans h0)), available_of_sameInputs h,
      raise_advance_eq_after]

theorem sequencerStep_of_sizeClass {s : State} {sc : SizeClass} (h : sizeClass s.version = some sc) :
    sequencerStep s =
      if 4 ≤ s.available then exec (decodeSegment sc s.bufBit s.offset) s else .next (tailCheck s) := by
  simp only [sequencerStep, fetch_of_sizeClass h]

/-- A step of the sequencer makes one and the same change of states that share what it reads. -/
theorem sequencerStep_eq_after {s t : State} (h : sequencerStep s = .next t) :
    ∃ k, ∀ s', SameInputs s s' → sequencerStep s' = .next (s'.after k) := by
  obtain ⟨sc, hsc, ⟨ha, -⟩ | ⟨ha, -⟩⟩ := sequencerStep_cases h
  · obtain ⟨k, hk⟩ := exec_eq_after (inStream_decodeSegment sc s.bufBit s.offset) s
    refine ⟨k, fun s' hs' => ?_⟩
    rw [sequencerStep_of_sizeClass (hs'.version ▸ hsc), available_of_sameInputs hs', if_pos ha,
      bufBit_of_sameInputs hs', hs'.offset, hk s' hs'.sjis hs'.utf8]
  · obtain ⟨k, hk⟩ := tailCheck_eq_after s
    refine ⟨k, fun s' hs' => ?_⟩
    rw [sequencerStep_of_sizeClass (hs'.version ▸ hsc), available_of_sameInputs hs', if_neg (Nat.not_le.2 ha),
      hk s' hs']

/-- With no command of the host pending, a step makes one and the same change of states that share what it reads. -/
theorem step_eq_after {s t : State} (hp : s.pending = none) (h : step s = .next t) :
    s.status = .run ∧ ∃ k, t = s.after k ∧
      ∀ s', SameInputs s s' → s'.pending = none → s'.status = .run → step s' = .next (s'.after k) := by
  obtain ⟨-, hr, hseq⟩ | ⟨c, hc, -⟩ := step_cases h
  · obtain ⟨k, hk⟩ := sequencerStep_eq_after hseq
    have self : sequencerStep s = .next (s.after k) := hk s ⟨rfl, rfl, rfl, rfl, rfl, rfl⟩
    refine ⟨hr, k, Host.Outcome.next.inj (hseq.symm.trans self), fun s' hs' hp' hr' => ?_⟩
    rw [step_eq_sequencerStep hp' hr', hk s' hs']
  · rw [hp] at hc; cases hc

/-! ### The statements -/

/-- Settles O50: a change writes none of these fields. -/
theorem noStepWritesTheInputs : Obligations.NoStepWritesTheInputs := by
  unfold Obligations.NoStepWritesTheInputs
  intro s t hp h
  obtain ⟨-, k, rfl, -⟩ := step_eq_after hp h
  exact ⟨after_mem s k, after_len s k, after_version s k, after_sjis s k, after_utf8 s k, after_pending s k,
    after_reply s k, after_resultVersion s k⟩

/-- Settles O51: a step reads no result list, so it makes the same change of both states. -/
theorem theResultListsSteerNothing : Obligations.TheResultListsSteerNothing := by
  unfold Obligations.TheResultListsSteerNothing
  intro s t x y z hp h
  obtain ⟨hr, k, rfl, same⟩ := step_eq_after hp h
  refine ⟨_, same { s with text := x, bytes := y, chunks := z } ⟨rfl, rfl, rfl, rfl, rfl, rfl⟩ hp hr,
    sameButLists_after s k x y z, fun _ => ⟨k.text, k.bytes, k.chunks, ?_⟩⟩
  simp only [after_text, after_bytes, after_chunks, and_self]

/-- A run without the host goes on alike whatever the last cursor command answered. -/
theorem run_with_reply {k : Nat} {s t : State} (hp : s.pending = none) (h : run k s = .next t) (r : Nat) :
    run k { s with reply := r } = .next { t with reply := r } := by
  induction k generalizing s with
  | zero => obtain rfl := Host.Outcome.next.inj h; rfl
  | succ n ih =>
    obtain ⟨u, hstep, hrun⟩ := run_succ_cases h
    obtain ⟨hr, c, rfl, same⟩ := step_eq_after hp hstep
    rw [run_succ (same { s with reply := r } ⟨rfl, rfl, rfl, rfl, rfl, rfl⟩ hp hr), after_with_reply]
    exact ih ((after_pending s c).trans hp) hrun

/-- A step that takes up START finds a legal VERSION and launches the decode (R300, R303). -/
theorem step_start_cases {s t : State} (hp : s.pending = some .start) (h : step s = .next t) :
    (∃ sc, sizeClass s.version = some sc) ∧ t = ({ s with pending := none } : State).launch := by
  rw [step_of_pending hp] at h
  obtain ⟨-, -, hsc, ht⟩ | ⟨_, _, hc, -⟩ | ⟨_, _, hc, -⟩ | ⟨_, _, _, hc, -⟩ := hostStep_cases h
  · exact ⟨Option.ne_none_iff_exists'.1 hsc, ht⟩
  · cases hc
  · cases hc
  · cases hc

/-- Settles O49: START leaves nothing of what the block held but `reply`, which no later step reads. -/
theorem aDecodeDependsOnItsInputsOnly : Obligations.ADecodeDependsOnItsInputsOnly := by
  unfold Obligations.ADecodeDependsOnItsInputsOnly
  intro k s s' t hp hp' _ hr' hmem hlen hversion hsjis hutf8 h
  obtain ⟨u, hstep, hrun⟩ := run_succ_cases h
  obtain ⟨⟨sc, hsc⟩, rfl⟩ := step_start_cases hp hstep
  have launched : ({ s' with pending := none } : State).launch =
      { ({ s with pending := none } : State).launch with reply := s'.reply } := by
    simp only [State.launch, hmem, hlen, hversion, hsjis, hutf8]
  rw [run_succ (step_eq_launch hp' hr' (hversion ▸ hsc)), launched]
  exact run_with_reply rfl hrun s'.reply

end Sys2Proof.Machine
end

section
/-! Steps of a decode: which instruction runs, which STATUS it leaves and how the run ends (R131 to R139, R260, R310).
Settles O18, O19, O20, O52 and O53. -/

namespace Sys2Proof.Machine

open Claims

/-! ### Which instruction a step runs -/

/-- Settles O18: the segment at OFFSET, which is the one whose bits stand there (`decodeSegment_encode`), or the pending
cursor command. -/
theorem aStepRunsTheDecodedInstruction : Obligations.AStepRunsTheDecodedInstruction := by
  unfold Obligations.AStepRunsTheDecodedInstruction
  refine ⟨fun s sc hp hr hsc ha => step_eq_exec hp hr hsc ha, fun s sc i hp hr hsc ha hwf hin hbits => ?_,
    fun s w i hr hp hw => ?_⟩
  · rw [step_eq_exec hp hr hsc ha, decodeSegment_encode hwf hin hbits]
  · rw [step_of_pending hp]
    exact hostCursor_of_ok (s := { s with pending := none }) hr hw

/-- With no command pending, a step that answers a next state begins in RUN with a legal VERSION and is a segment step or
the tail check. -/
theorem step_run_cases {s t : State} (hp : s.pending = none) (h : step s = .next t) :
    s.status = .run ∧ ∃ sc, sizeClass s.version = some sc ∧
      ((4 ≤ s.available ∧ exec (decodeSegment sc s.bufBit s.offset) s = .next t) ∨
       (s.available < 4 ∧ t = tailCheck s)) := by
  obtain ⟨-, hr, hseq⟩ | ⟨c, hc, -⟩ := step_cases h
  · exact ⟨hr, sequencerStep_cases hseq⟩
  · rw [hp] at hc; cases hc

/-- In RUN, with a legal VERSION and no command pending, a step answers a next state. -/
theorem exists_step {s : State} (hp : s.pending = none) (hr : s.status = .run) (hv : (sizeClass s.version).isSome) :
    ∃ t, step s = .next t := by
  obtain ⟨sc, hsc⟩ := Option.isSome_iff_exists.1 hv
  by_cases ha : 4 ≤ s.available
  · rw [step_eq_exec hp hr hsc ha]
    exact exec_segment_next (decodeSegment_isCommand sc _ _) s
  · exact ⟨_, step_eq_tailCheck hp hr hsc (Nat.lt_of_not_le ha)⟩

theorem step_of_not_run {s : State} (hp : s.pending = none) (hr : s.status ≠ .run) :
    step s = .fault .noStepEnabled := by simp only [step, hp, if_neg hr]

/-! ### STATUS after a step -/

/-- A segment leaves STATUS, or takes a fault that it may raise, or is the terminator. -/
theorem exec_status_cases {i : Instr} {s t : State} (h : exec i s = .next t) :
    t.status = s.status ∨ (t.status = .fault ∧ mayRaise i t.cause) ∨ (i = .term ∧ t.status = .done) := by
  cases exec_cases h with
  | content | eci | skips | answers => exact .inl rfl
  | raises c u _ hmay => exact .inr (.inl ⟨rfl, hmay⟩)
  | ends hterm => exact .inr (.inr ⟨hterm, rfl⟩)

/-- The tail check ends the run (R138, R139). -/
theorem tailCheck_status (s : State) :
    (tailCheck s).status = if s.memRead s.offset s.available = 0 then .done else .fault := by
  split_ifs with h
  · rw [tailCheck_of_eq_zero h, finish_status]
  · rw [tailCheck_of_ne_zero h, raise_status]

theorem tailCheck_over (s : State) : (tailCheck s).over = true := by
  rw [State.over, tailCheck_status]
  split_ifs <;> rfl

theorem over_iff (s : State) : s.over = true ↔ s.status = .done ∨ s.status = .fault := by
  simp [State.over]

/-- A decode that has taken a step goes on or is over. -/
theorem step_run_or_over {s t : State} (hp : s.pending = none) (h : step s = .next t) :
    t.status = .run ∨ t.over = true := by
  rw [over_iff]
  obtain ⟨hr, sc, -, ⟨-, hexec⟩ | ⟨-, rfl⟩⟩ := step_run_cases hp h
  · obtain hs | ⟨hs, -⟩ | ⟨-, hs⟩ := exec_status_cases hexec
    · exact .inl (hs.trans hr)
    · exact .inr (.inr hs)
    · exact .inr (.inl hs)
  · exact .inr ((over_iff _).1 (tailCheck_over s))

/-- Settles O20: `exists_step`, `step_of_not_run` and `step_run_or_over`. -/
theorem aStepIsEnabledExactlyInRun : Obligations.AStepIsEnabledExactlyInRun := by
  unfold Obligations.AStepIsEnabledExactlyInRun
  intro s hp
  refine ⟨fun hv => ⟨fun ⟨t, h⟩ => (step_run_cases hp h).1, fun hr => exists_step hp hr hv⟩, step_of_not_run hp,
    fun t h => ?_⟩
  rw [← over_iff]
  exact step_run_or_over hp h

/-- Which instructions can raise which causes (R260, R265). -/
theorem mayRaise_cases {i : Instr} {c : Cause} (h : mayRaise i c) :
    (∃ sc d, i = numInstr sc d ∧ (c = .numGroup3 ∨ c = .numGroup2 ∨ c = .numGroup1)) ∨
    (∃ sc d, i = alnumInstr sc d ∧ c = .alnumIndex) ∨ (∃ sc ks, i = kanjiInstr sc ks ∧ c = .kanjiUnmapped) := by
  cases i with
  | numSc0 d => exact .inl ⟨.sc0, d, rfl, h⟩
  | numSc1 d => exact .inl ⟨.sc1, d, rfl, h⟩
  | numSc2 d => exact .inl ⟨.sc2, d, rfl, h⟩
  | alnumSc0 d => exact .inr (.inl ⟨.sc0, d, rfl, h⟩)
  | alnumSc1 d => exact .inr (.inl ⟨.sc1, d, rfl, h⟩)
  | alnumSc2 d => exact .inr (.inl ⟨.sc2, d, rfl, h⟩)
  | kanjiSc0 ks => exact .inr (.inr ⟨.sc0, ks, rfl, h⟩)
  | kanjiSc1 ks => exact .inr (.inr ⟨.sc1, ks, rfl, h⟩)
  | kanjiSc2 ks => exact .inr (.inr ⟨.sc2, ks, rfl, h⟩)
  | _ => exact False.elim h

/-- Settles O52: a step into FAULT raised a cause (`exec_status_cases`), and only these instructions raise any. -/
theorem faultsComeFromTheTaxonomy : Obligations.FaultsComeFromTheTaxonomy := by
  unfold Obligations.FaultsComeFromTheTaxonomy
  intro i s t hs h ht
  obtain hsame | ⟨-, hmay⟩ | ⟨-, hdone⟩ := exec_status_cases h
  · exact absurd (hsame.symm.trans ht) hs
  · exact mayRaise_cases hmay
  · rw [hdone] at ht; cases ht

/-- The terminator is the row of indicator 0 and of no other. -/
theorem decodeSegment_eq_term_iff (sc : SizeClass) (bit : Nat → Bool) (j : Nat) :
    decodeSegment sc bit j = .term ↔ readNat bit j 4 = 0 := by
  refine ⟨fun h => ?_, decodeSegment_of_indicator⟩
  have hbits : Reads bit j (bitsOf 4 0) := by
    have := reads_encode_decodeSegment sc bit j
    rwa [h] at this
  exact readNat_of_reads hbits (by decide)

/-- Settles O53: of the segments the terminator alone ends a run in DONE, and `tailCheck_status` says when the tail check
does. -/
theorem theWaysToDone : Obligations.TheWaysToDone := by
  unfold Obligations.TheWaysToDone
  intro s t hp h
  obtain ⟨hr, sc, -, ⟨ha, hexec⟩ | ⟨ha, rfl⟩⟩ := step_run_cases hp h
  · have zero : s.memRead s.offset 4 = 0 ↔ decodeSegment sc s.bufBit s.offset = .term :=
      (decodeSegment_eq_term_iff sc s.bufBit s.offset).symm
    have done : t.status = .done ↔ decodeSegment sc s.bufBit s.offset = .term := by
      constructor
      · intro ht
        obtain hs | ⟨hs, -⟩ | ⟨hterm, -⟩ := exec_status_cases hexec
        · rw [ht, hr] at hs; cases hs
        · rw [ht] at hs; cases hs
        · exact hterm
      · intro hterm
        rw [hterm, exec_term] at hexec
        obtain rfl := Host.Outcome.next.inj hexec
        exact finish_status _
    rw [done, zero]
    exact ⟨fun hterm => .inl ⟨ha, hterm⟩, fun h => h.elim And.right fun h => absurd h.1 (Nat.not_lt.2 ha)⟩
  · rw [tailCheck_status, ite_eq_left_iff]
    simp [ha, Nat.not_le.2 ha]

/-! ### The tail check over BUF -/

/-- Fewer than 8 bits left are the low bits of the last byte of BUF (R53). -/
theorem memRead_available {s : State} (h0 : 0 < s.available) (h8 : s.available < 8) :
    s.memRead s.offset s.available = (Memory.read s.mem (s.len - 1)).toNat % 2 ^ s.available := by
  refine Nat.eq_of_testBit_eq fun i => ?_
  rw [State.memRead, testBit_readNat, Nat.testBit_mod_two_pow]
  by_cases hi : i < s.available
  · have hav : s.available = 8 * s.len - s.offset := rfl
    have place : (s.offset + (s.available - 1 - i)) / 8 = s.len - 1 ∧
        7 - (s.offset + (s.available - 1 - i)) % 8 = i := by omega
    rw [bufBit_of_lt (by omega), place.1, place.2]
    rfl
  · simp only [hi, decide_false, Bool.false_and]

/-- Settles O19: the three ends of the tail check, with the bits that are left as `memRead_available` has them. -/
theorem tailCheckEndsTheRun : Obligations.TailCheckEndsTheRun := by
  unfold Obligations.TailCheckEndsTheRun
  intro s hp hr hv ha
  obtain ⟨sc, hsc⟩ := Option.isSome_iff_exists.1 hv
  have read (h0 : 0 < s.available) := memRead_available h0 (by omega)
  have stop (h0 : 0 < s.available) : s.offset + s.available = 8 * s.len := by
    have hav : s.available = 8 * s.len - s.offset := rfl
    omega
  rw [step_eq_tailCheck hp hr hsc ha]
  refine ⟨fun h0 => ?_, read, fun h0 hz => ?_, fun h0 hne => ⟨_, rfl, ?_, ?_⟩⟩
  · rw [tailCheck, if_pos h0]; rfl
  · rw [tailCheck_of_eq_zero ((read h0).trans hz), finish_advance_eq, stop h0]
  · rw [tailCheck_of_ne_zero fun h => hne ((read h0).symm.trans h)]
    exact hostView_of_fault rfl
  · rw [tailCheck_of_ne_zero fun h => hne ((read h0).symm.trans h), raise_advance_eq, stop h0]
    rfl

end Sys2Proof.Machine
end

section
/-! OFFSET within a decode, and that every decode ends (R22, R23, R140). Settles O37, O45, O46 and O47. -/

namespace Sys2Proof.Machine

/-! ### How far a step moves OFFSET -/

theorem numLength_le {sc : SizeClass} {d : NumData} (h : d.count < 2 ^ countWidth .num sc) :
    numLength sc d ≤ 524300 := by
  have hrest : d.rest.bits ≤ 7 := by cases d.rest <;> simp [NumRest.bits]
  rw [NumData.count] at h
  rw [numLength]
  cases sc <;> simp only [countWidth] at h ⊢ <;> omega

theorem alnumLength_le {sc : SizeClass} {d : AlnumData} (h : d.count < 2 ^ countWidth .alnum sc) :
    alnumLength sc d ≤ 524300 := by
  rw [AlnumData.count] at h
  rw [alnumLength]
  cases sc <;> simp only [countWidth] at h ⊢ <;> omega

theorem byteLength_le {sc : SizeClass} {bs : List Byte} (h : bs.length < 2 ^ countWidth .byte sc) :
    byteLength sc bs ≤ 524300 := by
  rw [byteLength]
  cases sc <;> simp only [countWidth] at h ⊢ <;> omega

theorem kanjiLength_le {sc : SizeClass} {ks : List (BitVec 13)} (h : ks.length < 2 ^ countWidth .kanji sc) :
    kanjiLength sc ks ≤ 524300 := by
  rw [kanjiLength]
  cases sc <;> simp only [countWidth] at h ⊢ <;> omega

/-- The longest segment there is holds 65535 bytes after a 16-bit count (R84, R91). -/
theorem length_le_of_wf {sc : SizeClass} {i : Instr} (hin : i.inStream sc = true) (hwf : i.wf = true) :
    i.length ≤ 524300 := by
  cases row_of_inStream hin with
  | num d => rw [length_numInstr]; exact numLength_le (lt_of_countFits (wf_numInstr sc d ▸ hwf))
  | alnum d => rw [length_alnumInstr]; exact alnumLength_le (lt_of_countFits (wf_alnumInstr sc d ▸ hwf))
  | byte bs => rw [length_byteInstr]; exact byteLength_le (lt_of_countFits (wf_byteInstr sc bs ▸ hwf))
  | kanji ks => rw [length_kanjiInstr]; exact kanjiLength_le (lt_of_countFits (wf_kanjiInstr sc ks ▸ hwf))
  | eci7 | eci14 | eci21 | eciBad | term => simp [Instr.length]
  | reserved h => rw [length_of_mem_reservedIndicators _ h]; omega

/-- A segment step moves OFFSET by 4 to 524300 bits; the tail check moves it to the end of BUF if it is not there. -/
theorem step_offset {s t : State} (hp : s.pending = none) (h : step s = .next t) :
    (4 ≤ s.available ∧ s.offset + 4 ≤ t.offset ∧ t.offset ≤ s.offset + 524300) ∨
    (s.available < 4 ∧ t.offset = s.offset + s.available ∧ t.over = true) := by
  obtain ⟨-, sc, -, ⟨ha, hexec⟩ | ⟨ha, rfl⟩⟩ := step_run_cases hp h
  · have bounds := exec_segment_offset (decodeSegment_isCommand sc _ _) hexec
    have longest := length_le_of_wf (inStream_decodeSegment sc s.bufBit s.offset) (wf_decodeSegment sc _ _)
    exact .inl ⟨ha, bounds.1, by omega⟩
  · refine .inr ⟨ha, ?_, tailCheck_over s⟩
    by_cases hv : s.memRead s.offset s.available = 0
    · rw [tailCheck_of_eq_zero hv]; rfl
    · rw [tailCheck_of_ne_zero hv]; rfl

/-- Settles O46: both kinds of step by `step_offset`. -/
theorem offsetOnlyIncreases : Obligations.OffsetOnlyIncreases := by
  unfold Obligations.OffsetOnlyIncreases
  intro s t hp h
  have := step_offset hp h
  omega

/-- Settles O45: a segment step begins at least 4 bits before the end of BUF and moves OFFSET by at most 524300; START sets
it to 0. -/
theorem offsetStaysBounded : Obligations.OffsetStaysBounded := by
  unfold Obligations.OffsetStaysBounded
  have left (s : State) : s.available = 8 * s.len - s.offset := rfl
  refine ⟨fun s t ⟨hpending, hbound⟩ h => ?_, fun s ha => by have := left s; omega⟩
  obtain hp | hp := hpending
  · obtain ⟨-, k, hk, -⟩ := step_eq_after hp h
    have hlen : t.len = s.len := by rw [hk, after_len]
    have move := step_offset hp h
    refine ⟨.inl (by rw [hk, after_pending, hp]), ?_⟩
    have := left s
    omega
  · obtain ⟨-, rfl⟩ := step_start_cases hp h
    exact ⟨.inl rfl, Nat.zero_le _⟩

/-! ### Every decode ends -/

/-- Each step but the last uses up at least 4 of the bits that are left (R140). -/
theorem exists_run_over (n : Nat) {s : State} (hp : s.pending = none) (hr : s.status = .run)
    (hv : (sizeClass s.version).isSome) (hn : s.available ≤ 4 * n) :
    ∃ k t, k ≤ n + 1 ∧ run k s = .next t ∧ t.over = true := by
  induction n generalizing s with
  | zero =>
    obtain ⟨t, h⟩ := exists_step hp hr hv
    have ended : t.over = true := by
      obtain ⟨ha, -⟩ | ⟨-, -, hover⟩ := step_offset hp h
      · omega
      · exact hover
    exact ⟨1, t, Nat.le_refl 1, run_succ h, ended⟩
  | succ n ih =>
    obtain ⟨t, h⟩ := exists_step hp hr hv
    obtain ht | hover := step_run_or_over hp h
    · obtain ⟨ha, hmove, -⟩ | ⟨-, -, hover⟩ := step_offset hp h
      · obtain ⟨-, c, rfl, -⟩ := step_eq_after hp h
        have fewer : (s.after c).available ≤ 4 * n := by
          rw [State.available] at hn ⊢
          rw [after_len]
          omega
        obtain ⟨k, u, hk, hrun, hover⟩ := ih ((after_pending s c).trans hp) ht (by rwa [after_version]) fewer
        exact ⟨k + 1, u, by omega, (run_succ h).trans hrun, hover⟩
      · exact ⟨1, t, by omega, run_succ h, hover⟩
    · exact ⟨1, t, by omega, run_succ h, hover⟩

/-- Settles O47: at most `8×LEN` bits are left at first, so `2×LEN` segment steps use them up. -/
theorem everyDecodeEnds : Obligations.EveryDecodeEnds := by
  unfold Obligations.EveryDecodeEnds
  intro s hp hr hv
  exact exists_run_over (2 * s.len) hp hr hv (by rw [State.available]; omega)

/-! ### A byte segment from BUF -/

/-- Settles O37: indicator 0x4 selects the byte row, whose field decoder reads BUF and zeros beyond it, and a byte segment
has no fault. -/
theorem byteSegmentStepReadsTheBuffer : Obligations.ByteSegmentStepReadsTheBuffer := by
  unfold Obligations.ByteSegmentStepReadsTheBuffer
  intro s sc hp hr hsc ha hmode w c
  have row : decodeSegment sc s.bufBit s.offset = byteInstr sc (decodeBytes sc s.bufBit (s.offset + 4)) :=
    decodeSegment_of_indicator hmode
  rw [step_eq_exec hp hr hsc ha, row, exec_byteInstr, byteSegment_eq]
  refine ⟨_, rfl, hr, rfl, ?_, ?_⟩
  · simp only [byteLength, length_decodeBytes]
    rfl
  · simp only [decodeBytes, fields_eq_map]
    rfl

end Sys2Proof.Machine
end

section
/-! What holds throughout a decode and after it (R21, R25, R29, R37, R272, R308). Settles O43, O44, O54 and O55. -/

namespace Sys2Proof.Machine

/-! ### The operations that keep the invariant -/

theorem inv_reset : State.reset.Inv where
  memory_wf := rfl
  memory_in_len _ hc := absurd hc List.not_mem_nil
  text_eq _ := rfl
  bytes_eq _ := rfl
  chunks_legal _ _ hc := absurd hc List.not_mem_nil
  cause_iff := by decide
  version_latched _ := rfl

/-- Settles O44: `inv_reset`. -/
theorem resetMeetsTheInvariant : Obligations.ResetMeetsTheInvariant := inv_reset

/-- OFFSET, the host's port and `reply` are in no clause of the invariant. -/
theorem inv_of_sameResult {s t : State} (h : s.Inv)
    (heq : t = { s with offset := t.offset, pending := t.pending, reply := t.reply }) : t.Inv := by
  rw [heq]
  obtain ⟨hwf, hlen, htext, hbytes, hlegal, hcause, hversion⟩ := h
  exact ⟨hwf, hlen, htext, hbytes, hlegal, hcause, hversion⟩

theorem inv_advance {s : State} (h : s.Inv) (n : Nat) : (s.advance n).Inv := inv_of_sameResult h rfl

theorem inv_answer {s : State} (h : s.Inv) (v : Nat) : (s.answer v).Inv := inv_of_sameResult h rfl

/-- A legal chunk, with its own text and bytes, keeps the concatenations of R37. -/
theorem inv_accumulate {s : State} (h : s.Inv) {c : Chunk} (hc : c.legal) :
    (s.accumulate c c.textOf c.bytesOf).Inv where
  memory_wf := h.memory_wf
  memory_in_len := h.memory_in_len
  text_eq hs := by
    rw [accumulate_text, accumulate_chunks, h.text_eq hs, List.flatMap_append, List.flatMap_singleton]
  bytes_eq hs := by
    rw [accumulate_bytes, accumulate_chunks, h.bytes_eq hs, List.flatMap_append, List.flatMap_singleton]
  chunks_legal hs d hd := by
    rw [accumulate_chunks, List.mem_append, List.mem_singleton] at hd
    obtain hd | rfl := hd
    · exact h.chunks_legal hs d hd
    · exact hc
  cause_iff := h.cause_iff
  version_latched := h.version_latched

/-- An ECI chunk has no text and no bytes (R37, R136). -/
theorem accumulateEci_eq_accumulate (a : Int) (s : State) :
    s.accumulateEci a = s.accumulate (.eci a) (Chunk.eci a).textOf (Chunk.eci a).bytesOf := by
  simp [State.accumulateEci, State.accumulate, Chunk.textOf, Chunk.bytesOf]

/-- A fault gives CAUSE a value other than 0, and nothing is asked of the lists after it. -/
theorem inv_raise {s : State} (h : s.Inv) {c : Cause} (hc : c ≠ .none) : (s.raise c).Inv where
  memory_wf := h.memory_wf
  memory_in_len := h.memory_in_len
  text_eq hs := absurd rfl hs
  bytes_eq hs := absurd rfl hs
  chunks_legal hs := absurd rfl hs
  cause_iff := iff_of_false hc fun hs => hs rfl
  version_latched hs := by cases hs

/-- A run that is not at FAULT may end in DONE. -/
theorem inv_finish {s : State} (h : s.Inv) (hs : s.status ≠ .fault) : s.finish.Inv where
  memory_wf := h.memory_wf
  memory_in_len := h.memory_in_len
  text_eq _ := h.text_eq hs
  bytes_eq _ := h.bytes_eq hs
  chunks_legal _ := h.chunks_legal hs
  cause_iff := iff_of_true (h.cause_iff.2 hs) (by simp)
  version_latched hd := by cases hd

/-- START empties the lists and latches VERSION. -/
theorem inv_launch {s : State} (h : s.Inv) : s.launch.Inv where
  memory_wf := h.memory_wf
  memory_in_len := h.memory_in_len
  text_eq _ := rfl
  bytes_eq _ := rfl
  chunks_legal _ _ hc := absurd hc List.not_mem_nil
  cause_iff := iff_of_true rfl (by simp)
  version_latched _ := rfl

/-- A load outside RUN brings a canonical memory inside the new LEN. -/
theorem inv_load {s : State} (h : s.Inv) (hr : s.status ≠ .run) (buf : List Byte) (v : BitVec 6) :
    ({ s with mem := Memory.ofBytes buf, len := buf.length, version := v } : State).Inv where
  memory_wf := Memory.wf_ofBytes buf
  memory_in_len _ hc := Memory.mem_ofBytes hc
  text_eq := h.text_eq
  bytes_eq := h.bytes_eq
  chunks_legal := h.chunks_legal
  cause_iff := h.cause_iff
  version_latched hs := absurd hs hr

theorem inv_configure {s : State} (h : s.Inv) (tab : List (CodeUnit × CodeUnit)) (dec : Utf8Decoder) :
    ({ s with sjis := tab, utf8 := dec } : State).Inv := by
  obtain ⟨hwf, hlen, htext, hbytes, hlegal, hcause, hversion⟩ := h
  exact ⟨hwf, hlen, htext, hbytes, hlegal, hcause, hversion⟩

/-! ### Steps keep the invariant -/

theorem inv_exec {i : Instr} {s t : State} (h : s.Inv) (hs : s.status ≠ .fault) (hexec : exec i s = .next t) : t.Inv := by
  cases exec_cases hexec with
  | content c _ _ hlegal => exact inv_accumulate (inv_advance h _) hlegal
  | raises c u _ _ hnone => exact inv_raise (inv_advance h u) hnone
  | eci a _ _ hlegal => rw [accumulateEci_eq_accumulate]; exact inv_accumulate (inv_advance h _) hlegal
  | ends => exact inv_finish (inv_advance h 4) hs
  | skips => exact inv_advance h 4
  | answers n v => exact inv_answer (inv_advance h n) v

theorem inv_tailCheck {s : State} (h : s.Inv) (hs : s.status ≠ .fault) : (tailCheck s).Inv := by
  by_cases hv : s.memRead s.offset s.available = 0
  · rw [tailCheck_of_eq_zero hv]
    exact inv_finish (inv_advance h _) hs
  · rw [tailCheck_of_ne_zero hv]
    exact inv_raise (inv_advance h _) (by decide)

theorem inv_hostStep {c : HostCmd} {s t : State} (h : s.Inv) (hstep : hostStep c s = .next t) : t.Inv := by
  obtain ⟨-, -, -, rfl⟩ | ⟨buf, v, -, hr, rfl⟩ | ⟨tab, dec, -, -, rfl⟩ | ⟨-, n, v, -, -, -, rfl⟩ :=
    hostStep_cases hstep
  · exact inv_launch h
  · exact inv_load h hr buf v
  · exact inv_configure h tab dec
  · exact inv_answer (inv_advance h n) v

/-- Settles O43: a segment, the tail check and each of the host's commands keep the invariant. -/
theorem everyStepKeepsTheInvariant : Obligations.EveryStepKeepsTheInvariant := by
  unfold Obligations.EveryStepKeepsTheInvariant
  intro s t h hstep
  cases hp : s.pending with
  | none =>
    obtain ⟨hr, sc, -, ⟨-, hexec⟩ | ⟨-, rfl⟩⟩ := step_run_cases hp hstep
    · exact inv_exec h (by rw [hr]; decide) hexec
    · exact inv_tailCheck h (by rw [hr]; decide)
  | some c =>
    rw [step_of_pending hp] at hstep
    exact inv_hostStep (inv_of_sameResult h rfl) hstep

/-! ### After a decode -/

/-- What the host reads is chosen by STATUS from the result, its VERSION and CAUSE. -/
theorem hostView_congr {s t : State} (hstatus : t.status = s.status) (hcause : t.cause = s.cause)
    (htext : t.text = s.text) (hbytes : t.bytes = s.bytes) (hchunks : t.chunks = s.chunks)
    (hversion : t.resultVersion = s.resultVersion) : t.hostView = s.hostView := by
  simp only [State.hostView, hstatus, hcause, htext, hbytes, hchunks, hversion]

/-- Settles O54: in DONE and FAULT only the host has a step, and of its commands only START writes what it reads. -/
theorem onlyStartLeavesAFinalStatus : Obligations.OnlyStartLeavesAFinalStatus := by
  unfold Obligations.OnlyStartLeavesAFinalStatus
  intro s t hover hstart h
  obtain ⟨-, hr, -⟩ | ⟨c, hp, hstep⟩ := step_cases h
  · rw [over_iff, hr] at hover
    obtain hover | hover := hover <;> cases hover
  · obtain ⟨rfl, -, -, -⟩ | ⟨_, _, -, -, rfl⟩ | ⟨_, _, -, -, rfl⟩ | ⟨_, _, _, -, -, -, rfl⟩ := hostStep_cases hstep
    · exact absurd hp hstart
    · exact ⟨rfl, rfl, hostView_congr rfl rfl rfl rfl rfl rfl⟩
    · exact ⟨rfl, rfl, hostView_congr rfl rfl rfl rfl rfl rfl⟩
    · exact ⟨rfl, rfl, hostView_congr rfl rfl rfl rfl rfl rfl⟩

/-- Without a command of the host a run leaves VERSION and the latched VERSION as they are. -/
theorem run_versions {k : Nat} {s t : State} (hp : s.pending = none) (h : run k s = .next t) :
    t.version = s.version ∧ t.resultVersion = s.resultVersion := by
  induction k generalizing s with
  | zero => obtain rfl := Host.Outcome.next.inj h; exact ⟨rfl, rfl⟩
  | succ n ih =>
    obtain ⟨u, hstep, hrun⟩ := run_succ_cases h
    obtain ⟨-, c, rfl, -⟩ := step_eq_after hp hstep
    simpa only [after_version, after_resultVersion] using ih ((after_pending s c).trans hp) hrun

/-- Settles O55: START latches VERSION, and the steps after it leave both as they are. -/
theorem theResultEchoesTheVersion : Obligations.TheResultEchoesTheVersion := by
  unfold Obligations.TheResultEchoesTheVersion
  intro k s t hp _ h hdone
  obtain ⟨u, hstep, hrun⟩ := run_succ_cases h
  obtain ⟨-, rfl⟩ := step_start_cases hp hstep
  obtain ⟨hversion, hresult⟩ := run_versions rfl hrun
  refine ⟨?_, hversion⟩
  rw [hostView_of_done hdone, hresult]
  rfl

end Sys2Proof.Machine
end

section
/-! The step against the pseudocode over the working registers (R141, R112): settles O48. -/

namespace Sys2Proof.Machine

/-! ### The ECI segment over the registers -/

/-- A read of one bit leaves that bit in ACC (R112). -/
theorem rtl_readBits_one (m : Rtl) : ∃ a : BitVec 32,
    m.readBits 1 = ⟨m.arch.advance 1, { m.work with acc := a }⟩ ∧ a.toNat = (m.arch.bufBit m.arch.offset).toNat := by
  obtain ⟨a, hread, hvalue⟩ := rtl_readBits_eq m 1 (by decide)
  exact ⟨a, hread, by rw [hvalue]; simp [readNat]⟩

/-- The registers agree with the meaning of an instruction: it answers their architectural state, and SCR is kept. -/
def Rtl.Ends (i : Instr) (s : State) (sc : SizeClass) (m : Rtl) : Prop :=
  exec i s = .next m.arch ∧ m.work.scr = sc.code

/-- The value of an ECI segment, read after its selector bits (R241, R242). -/
theorem rtl_eciValue_ends {m : Rtl} {s : State} {sc : SizeClass} {i : Instr} {k w : Nat} (hs : m.work.scr = sc.code)
    (h : m.arch = s.advance k) (hw : w ≤ 32)
    (hexec : exec i s = .next (eciSegment (k + w) (readNat s.bufBit (s.offset + k) w) s)) :
    Rtl.Ends i s sc { m.readBits w with arch := (m.readBits w).arch.accumulateEci (m.readBits w).acc } := by
  obtain ⟨a, hread, hvalue⟩ := rtl_readBits_eq m w hw
  rw [h, advance_bufBit, advance_offset] at hvalue
  rw [hread, Rtl.acc, hvalue, h, advance_advance]
  exact ⟨hexec, hs⟩

/-- The selector bits are read one by one, until a 0 says how long the value is or three are 1 (R241). -/
theorem rtl_eciSegment_ends {m : Rtl} {s : State} {sc : SizeClass} (hs : m.work.scr = sc.code)
    (h : m.arch = s.advance 4) : Rtl.Ends (decodeEci s.bufBit (s.offset + 4)) s sc m.eciSegment := by
  obtain ⟨arch, work⟩ := m
  obtain rfl : arch = s.advance 4 := h
  obtain ⟨a1, h1, v1⟩ := rtl_readBits_one ⟨s.advance 4, work⟩
  obtain ⟨a2, h2, v2⟩ := rtl_readBits_one ⟨s.advance 5, { work with acc := a1 }⟩
  obtain ⟨a3, h3, v3⟩ := rtl_readBits_one ⟨s.advance 6, { work with acc := a2 }⟩
  simp only [advance_advance, advance_bufBit, advance_offset] at h1 h2 h3 v1 v2 v3
  rw [Rtl.eciSegment, decodeEci, h1]
  simp only [Rtl.acc, h2, h3, v1, v2, v3, Bool.toNat_eq_zero, Nat.add_assoc, Nat.reduceAdd]
  split_ifs
  · exact rtl_eciValue_ends (k := 5) hs rfl (by decide) (by rw [exec_eci7, toNat_field])
  · exact rtl_eciValue_ends (k := 6) hs rfl (by decide) (by rw [exec_eci14, toNat_field])
  · exact rtl_eciValue_ends (k := 7) hs rfl (by decide) (by rw [exec_eci21, toNat_field])
  · exact ⟨rfl, hs⟩

/-! ### Dispatch -/

section

variable {m : Rtl}

theorem rtl_dispatch_term (h : m.work.mode = 0x0) : m.dispatch = { m with arch := m.arch.finish } := by
  simp [Rtl.dispatch, h]

theorem rtl_dispatch_num (h : m.work.mode = 0x1) :
    m.dispatch = Rtl.close (fun w => .numeric w.segText) m.unpackNumeric := by simp [Rtl.dispatch, h]

theorem rtl_dispatch_alnum (h : m.work.mode = 0x2) :
    m.dispatch = Rtl.close (fun w => .alphanumeric w.segText) m.unpackAlphanumeric := by simp [Rtl.dispatch, h]

theorem rtl_dispatch_byte (h : m.work.mode = 0x4) :
    m.dispatch = Rtl.close (fun w => .byte w.segBytes w.segText) (.ok m.unpackByte) := by simp [Rtl.dispatch, h]

theorem rtl_dispatch_kanji (h : m.work.mode = 0x8) :
    m.dispatch = Rtl.close (fun w => .kanji w.segBytes w.segText) m.unpackKanji := by simp [Rtl.dispatch, h]

theorem rtl_dispatch_eci (h : m.work.mode = 0x7) : m.dispatch = m.eciSegment := by simp [Rtl.dispatch, h]

/-- The indicators R92 reserves fall through the dispatch. -/
theorem rtl_dispatch_reserved (h : m.work.mode ∉ ([0x0, 0x1, 0x2, 0x4, 0x7, 0x8] : List (BitVec 4))) :
    m.dispatch = m := by
  simp only [List.mem_cons, List.not_mem_nil, or_false, not_or] at h
  obtain ⟨h0, h1, h2, h4, h7, h8⟩ := h
  simp only [Rtl.dispatch, h0, h1, h2, h4, h7, h8, if_false]

end

/-- The row that MODE selects ends as the pseudocode of its segment does. -/
theorem rtl_dispatch_ends {m : Rtl} {s : State} {sc : SizeClass} {n : Nat} (hs : m.work.scr = sc.code)
    (h : m.arch = s.advance 4) (hlt : n < 16) (hmode : m.work.mode = BitVec.ofNat 4 n) :
    Rtl.Ends (indicatorRow sc s.bufBit (s.offset + 4) n) s sc m.dispatch := by
  have reserved {i : Instr} (hi : i ∈ reservedIndicators)
      (hm : m.work.mode ∉ ([0x0, 0x1, 0x2, 0x4, 0x7, 0x8] : List (BitVec 4))) : Rtl.Ends i s sc m.dispatch := by
    rw [rtl_dispatch_reserved hm]
    exact ⟨by rw [exec_of_mem_reservedIndicators hi, h]; rfl, hs⟩
  have content {i : Instr} {chunk : Work → Chunk} {regs : WorkRegs → Chunk} {r : Except Rtl Rtl} {u : Unpacked}
      (hexec : exec i s = .next (closeSegment chunk u s))
      (hregs : ∀ w k, w.segText = k.text → w.segBytes = k.bytes → regs w = chunk k)
      (hagree : Rtl.Agrees s sc.code (fun _ => True) r u) : Rtl.Ends i s sc (Rtl.close regs r) := by
    obtain ⟨harch, hscr⟩ := rtl_close_agrees chunk regs hregs hagree
    exact ⟨by rw [hexec, harch], hscr⟩
  unfold indicatorRow
  split
  case h_1 =>
    rw [rtl_dispatch_term hmode]
    exact ⟨by rw [h]; rfl, hs⟩
  case h_2 =>
    rw [rtl_dispatch_num hmode]
    exact content (exec_numInstr sc _ s) (fun _ _ ht _ => congrArg _ ht) (rtl_unpackNumeric_agrees m s sc hs h)
  case h_3 =>
    rw [rtl_dispatch_alnum hmode]
    exact content (exec_alnumInstr sc _ s) (fun _ _ ht _ => congrArg _ ht) (rtl_unpackAlphanumeric_agrees m s sc hs h)
  case h_5 =>
    rw [rtl_dispatch_byte hmode]
    exact content (exec_byteInstr sc _ s) (fun _ _ ht hb => congrArg₂ _ hb ht) (rtl_unpackByte_agrees m s sc hs h)
  case h_9 =>
    rw [rtl_dispatch_kanji hmode]
    exact content (exec_kanjiInstr sc _ s) (fun _ _ ht hb => congrArg₂ _ hb ht) (rtl_unpackKanji_agrees m s sc hs h)
  case h_8 =>
    rw [rtl_dispatch_eci hmode]
    exact rtl_eciSegment_ends hs h
  case h_16 => -- the last row, which stands for 0xF
    obtain rfl : n = 0xF := by grind
    exact reserved (by decide) (by rw [hmode]; decide)
  all_goals exact reserved (by decide) (by rw [hmode]; decide)

/-! ### The step -/

/-- The tail check over the registers (R138). -/
theorem rtl_tail_eq {m : Rtl} (h : m.arch.available ≤ 32) :
    m.tail.arch = tailCheck m.arch ∧ m.tail.work.scr = m.work.scr := by
  obtain ⟨a, hread, hvalue⟩ := rtl_readBits_eq m m.arch.available h
  rw [Rtl.tail]
  split_ifs with h0
  · exact ⟨by rw [tailCheck, if_pos h0], rfl⟩
  · simp only [hread, Rtl.acc, hvalue]
    split_ifs with hv
    · exact ⟨(tailCheck_of_eq_zero hv).symm, rfl⟩
    · exact ⟨(tailCheck_of_ne_zero hv).symm, rfl⟩

/-- Settles O48: with 4 bits left the registers read the indicator and dispatch on it (`rtl_dispatch_ends`), with fewer
they do the tail check (`rtl_tail_eq`). -/
theorem aStepIsThePseudocodeOverRegisters : Obligations.AStepIsThePseudocodeOverRegisters := by
  unfold Obligations.AStepIsThePseudocodeOverRegisters
  intro m sc hp hr hsc hscr
  rw [Rtl.step]
  split_ifs with ha
  · obtain ⟨a, hread, hvalue⟩ := rtl_readBits_eq m 4 (by decide)
    rw [step_eq_exec hp hr hsc ha, decodeSegment_of_indicator rfl, hread]
    refine rtl_dispatch_ends hscr rfl (readNat_lt _ _ 4) ?_
    rw [← hvalue, BitVec.ofNat_toNat]
  · obtain ⟨harch, hwork⟩ := rtl_tail_eq (m := m) (by omega)
    rw [step_eq_tailCheck hp hr hsc (by omega), harch, hwork]
    exact ⟨rfl, hscr⟩

end Sys2Proof.Machine
end

section
/-! Digit strings and alphabet strings, assembled, encoded, decoded and run (R95, R162, R183): settles O41 and O42. -/

namespace Sys2Proof.Machine

open Claims

/-- A number that fits its field is the field's value. -/
theorem toNat_ofNat_of_lt {w x : Nat} (h : x < 2 ^ w) : (BitVec.ofNat w x).toNat = x := by
  rw [BitVec.toNat_ofNat, Nat.mod_eq_of_lt h]

/-! ### Digit strings -/

theorem count_numOfDigits (ds : List (Fin 10)) : (numOfDigits ds).count = ds.length := by
  fun_induction numOfDigits ds with
  | case1 a b c ds d ih =>
    simp only [NumData.count, List.length_cons, d] at ih ⊢
    omega
  | case2 a b => rfl
  | case3 a => rfl
  | case4 => rfl

/-- Three digits fit in 10 bits, two in 7 and one in 4 (R162 to R164). -/
theorem toNat_three_digits (a b c : Fin 10) :
    (BitVec.ofNat 10 (100 * a.val + 10 * b.val + c.val)).toNat = 100 * a.val + 10 * b.val + c.val :=
  toNat_ofNat_of_lt (by omega)

theorem toNat_two_digits (a b : Fin 10) : (BitVec.ofNat 7 (10 * a.val + b.val)).toNat = 10 * a.val + b.val :=
  toNat_ofNat_of_lt (by omega)

theorem toNat_one_digit (a : Fin 10) : (BitVec.ofNat 4 a.val).toNat = a.val := toNat_ofNat_of_lt (by omega)

/-- The groups that R95 assembles are in range (R162). -/
theorem numOfDigits_groups_lt (ds : List (Fin 10)) : ∀ g ∈ (numOfDigits ds).groups, g.toNat < 1000 := by
  fun_induction numOfDigits ds with
  | case1 a b c ds d ih =>
    intro g hg
    obtain rfl | hg := List.mem_cons.1 hg
    · rw [toNat_three_digits]; omega
    · exact ih g hg
  | case2 | case3 | case4 => exact fun g hg => absurd hg List.not_mem_nil

/-- So is the rest (R163, R164). -/
theorem numOfDigits_restInRange (ds : List (Fin 10)) : restInRange (numOfDigits ds).rest := by
  fun_induction numOfDigits ds with
  | case1 a b c ds d ih => exact ih
  | case2 a b => simp only [restInRange, toNat_two_digits]; omega
  | case3 a => simp only [restInRange, toNat_one_digit]; omega
  | case4 => trivial

/-- Reading the groups digit by digit gives the string back. -/
theorem digits_numOfDigits (ds : List (Fin 10)) : digits (numOfDigits ds) = ds.map Fin.val := by
  fun_induction numOfDigits ds with
  | case1 a b c ds d ih =>
    have hundreds : (100 * a.val + 10 * b.val + c.val) / 100 = a.val := by omega
    have tens : (100 * a.val + 10 * b.val + c.val) / 10 % 10 = b.val := by omega
    have units : (100 * a.val + 10 * b.val + c.val) % 10 = c.val := by omega
    simp only [digits, d, List.flatMap_cons, toNat_three_digits, hundreds, tens, units, List.map_cons,
      List.cons_append, List.nil_append] at ih ⊢
    rw [ih]
  | case2 a b =>
    have tens : (10 * a.val + b.val) / 10 = a.val := by omega
    have units : (10 * a.val + b.val) % 10 = b.val := by omega
    simp only [digits, restDigits, List.flatMap_nil, toNat_two_digits, tens, units, List.nil_append, List.map_cons,
      List.map_nil]
  | case3 a =>
    simp only [digits, restDigits, List.flatMap_nil, toNat_one_digit, List.nil_append, List.map_cons, List.map_nil]
  | case4 => rfl

/-- Settles O41: the string's data is in range, so it decodes from its bits (`decodeSegment_encode`) and runs as O27 says
(`numericSegmentResult`), to the digits of `digits_numOfDigits`. -/
theorem numericRoundTrip : Obligations.NumericRoundTrip := by
  unfold Obligations.NumericRoundTrip
  intro sc ds s
  refine ⟨count_numOfDigits ds, fun hlen => ?_, ?_⟩
  · refine decodeSegment_encode ?_ (inStream_numInstr sc _) (reads_bitOfList _)
    rw [wf_numInstr, count_numOfDigits]
    exact countFits_of_lt hlen
  · obtain ⟨hexec, -⟩ := numericSegmentResult sc (numOfDigits ds) s (numOfDigits_groups_lt ds)
      (numOfDigits_restInRange ds)
    rw [digits_numOfDigits, List.map_map, List.map_map] at hexec
    exact ⟨_, hexec, rfl, rfl, rfl⟩

/-! ### Alphabet strings -/

theorem count_alnumOfIndices (is : List (Fin 45)) : (alnumOfIndices is).count = is.length := by
  fun_induction alnumOfIndices is with
  | case1 a b is d ih =>
    simp only [AlnumData.count, List.length_cons, d] at ih ⊢
    omega
  | case2 a => rfl
  | case3 => rfl

/-- Two indices fit in 11 bits and one in 6 (R183, R184). -/
theorem toNat_two_indices (a b : Fin 45) : (BitVec.ofNat 11 (45 * a.val + b.val)).toNat = 45 * a.val + b.val :=
  toNat_ofNat_of_lt (by omega)

theorem toNat_one_index (a : Fin 45) : (BitVec.ofNat 6 a.val).toNat = a.val := toNat_ofNat_of_lt (by omega)

/-- Reading the pairs index by index gives the string back. -/
theorem indices_alnumOfIndices (is : List (Fin 45)) : indices (alnumOfIndices is) = is.map Fin.val := by
  fun_induction alnumOfIndices is with
  | case1 a b is d ih =>
    have first : (45 * a.val + b.val) / 45 = a.val := by omega
    have second : (45 * a.val + b.val) % 45 = b.val := by omega
    simp only [indices, d, List.flatMap_cons, toNat_two_indices, first, second, List.map_cons,
      List.cons_append, List.nil_append] at ih ⊢
    rw [ih]
  | case2 a =>
    simp only [indices, List.flatMap_nil, Option.toList_some, toNat_one_index, List.nil_append, List.map_cons,
      List.map_nil]
  | case3 => rfl

/-- Settles O42: the string's indices are in the table, so it decodes from its bits (`decodeSegment_encode`) and runs as
O29 says (`alphanumericSegmentResult`), to the characters of `indices_alnumOfIndices`. -/
theorem alphanumericRoundTrip : Obligations.AlphanumericRoundTrip := by
  unfold Obligations.AlphanumericRoundTrip
  intro sc is s
  refine ⟨count_alnumOfIndices is, fun hlen => ?_, ?_⟩
  · refine decodeSegment_encode ?_ (inStream_alnumInstr sc _) (reads_bitOfList _)
    rw [wf_alnumInstr, count_alnumOfIndices]
    exact countFits_of_lt hlen
  · have inTable : ∀ i ∈ indices (alnumOfIndices is), i ≤ 44 := by
      rw [indices_alnumOfIndices]
      intro i hi
      obtain ⟨x, -, rfl⟩ := List.mem_map.1 hi
      omega
    obtain ⟨hexec, -⟩ := alphanumericSegmentResult sc (alnumOfIndices is) s inTable
    rw [indices_alnumOfIndices, List.map_map, List.map_map] at hexec
    exact ⟨_, hexec, rfl, rfl, rfl⟩

end Sys2Proof.Machine
end

section
/-! The kanji code by ranges (R222, R223): settles O39. -/

namespace Sys2Proof.Machine

open Claims

/-- The code of R222 fits in 16 bits, so no carry is lost (R223). -/
theorem toNat_kanjiCode (k : BitVec 13) : (kanjiCode k).toNat = shiftJis k := by
  have hk := k.isLt
  rw [kanjiCode_eq_ofNat_shiftJis]
  refine toNat_ofNat_of_lt ?_
  rw [shiftJis]
  split <;> omega

/-- A quotient of at most 30 is in the range of the first addend (R223). -/
theorem shiftJis_of_le {k : BitVec 13} (h : k.toNat / 192 ≤ 30) :
    shiftJis k = 256 * (0x81 + k.toNat / 192) + (0x40 + k.toNat % 192) := by
  rw [shiftJis, if_pos (by omega)]; omega

/-- A larger quotient is in the range of the second (R223). -/
theorem shiftJis_of_ge {k : BitVec 13} (h : 31 ≤ k.toNat / 192) :
    shiftJis k = 256 * (0xC1 + k.toNat / 192) + (0x40 + k.toNat % 192) := by
  rw [shiftJis, if_neg (by omega)]; omega

/-- Within a range the code gives back quotient and remainder, and the ranges do not meet. -/
theorem shiftJis_injective {k k' : BitVec 13} (h : shiftJis k = shiftJis k') : k = k' := by
  have hk := k.isLt
  have hk' := k'.isLt
  refine BitVec.eq_of_toNat_eq ?_
  obtain hlo | hhi := Nat.lt_or_ge (k.toNat / 192) 31 <;> obtain hlo' | hhi' := Nat.lt_or_ge (k'.toNat / 192) 31
  · rw [shiftJis_of_le (by omega), shiftJis_of_le (by omega)] at h; omega
  · rw [shiftJis_of_le (by omega), shiftJis_of_ge hhi'] at h; omega
  · rw [shiftJis_of_ge hhi, shiftJis_of_le (by omega)] at h; omega
  · rw [shiftJis_of_ge hhi, shiftJis_of_ge hhi'] at h; omega

/-- Settles O39: the two ranges by `shiftJis_of_le` and `shiftJis_of_ge`, the codes apart by `shiftJis_injective`. -/
theorem kanjiCodeRangesAndInjectivity : Obligations.KanjiCodeRangesAndInjectivity := by
  unfold Obligations.KanjiCodeRangesAndInjectivity
  refine ⟨fun k h => ?_, fun k h => ?_, by decide, fun k k' h => ?_⟩
  · rw [toNat_kanjiCode, shiftJis_of_le h]
    omega
  · have hk := k.isLt
    rw [toNat_kanjiCode, shiftJis_of_ge h]
    omega
  · exact shiftJis_injective (by rw [← toNat_kanjiCode, h, toNat_kanjiCode])

end Sys2Proof.Machine
end

section
/-! The codes at the ports (R24, R27, R245, R265) and words written out from the formats (R80): settles O10 and O17. -/

namespace Sys2Proof.Machine

/-- The 22-bit field holds every number from −2^21 to 2^21 − 1 (R245). -/
theorem assignmentField_toInt {a : Int} (hlo : -2 ^ 21 ≤ a) (hhi : a < 2 ^ 21) : (assignmentField a).toInt = a := by
  rw [assignmentField, BitVec.toInt_ofInt, Int.bmod_eq_of_le] <;> omega

/-- Settles O17: the tables by evaluation, an assignment number by `assignmentField_toInt`. -/
theorem portEncodings : Obligations.PortEncodings := by
  unfold Obligations.PortEncodings
  exact ⟨rfl, rfl, fun t b a => ⟨rfl, rfl, rfl, rfl, rfl⟩, rfl,
    fun a ha => assignmentField_toInt (by omega) (by omega)⟩

/-- Settles O10: the decoder evaluated on each word. -/
theorem sampleWordsDecode : Obligations.SampleWordsDecode := by
  unfold Obligations.SampleWordsDecode
  exact ⟨rfl, rfl, rfl, rfl, rfl, rfl, rfl, rfl, rfl, rfl⟩

end Sys2Proof.Machine
end
